-- ==== Sys2Proof/Word.lean ====
section
/-! DEFINITION. The two word types of the block: the buffered byte (spec/00_scope.md R11, 8 bits) and the
16-bit step word and response (spec/30_encoding.md R90, R100). Indices and counts are naturals (R11, R126). -/
namespace Sys2Proof

/-- A buffered datum: an uninterpreted unsigned 8-bit value (R11). -/
abbrev Byte := BitVec 8

/-- A step word (R90) or a response (R100): one 16-bit value, never split into bytes (R63). -/
abbrev Word := BitVec 16

end Sys2Proof
end

