-- ==== Sys2Proof/Syntax.lean ====
section
/-! DEFINITION. The operations of spec/opcode_table.json (spec/30_encoding.md R93), one constructor a row. -/
namespace Sys2Proof

/-- A step word's meaning: a command word of the mainline or a schedule label (R92). The only operand of
any operation is one byte (R91), so every term is well formed. -/
inductive Instr where
  /-- `INIT` (R211), command. -/
  | init
  /-- `WRITE d` (R160), command: `d` is the byte to transmit. -/
  | write (d : Byte)
  /-- `READ` (R182), command. -/
  | read
  /-- `AVAIL` (R186), command. -/
  | avail
  /-- `GIE_CLR` (R214), command. -/
  | gieClr
  /-- `GIE_SET` (R213), command. -/
  | gieSet
  /-- `ISR_RX` (R141), label: the receive interrupt handler. -/
  | isrRx
  /-- `ISR_TX` (R151), label: the transmit interrupt handler. -/
  | isrTx
  /-- `LINE_RX d` (R216, R217), label: `d` is the byte that arrived. -/
  | lineRx (d : Byte)
  /-- `LINE_TX` (R218), label: the transmitter is ready again. -/
  | lineTx
  /-- `MSTEP` (R103), label: the mainline takes its next atomic step. -/
  | mstep
  deriving DecidableEq, Repr

end Sys2Proof
end

