-- ==== Sys2Proof/WellFormed.lean ====
section
/-! DEFINITION. The fields of a step word (spec/30_encoding.md R90) and the three checks that make a word one
of the table's (R97). A term of `Instr` carries nothing but a byte, so it needs no check of its own. -/
namespace Sys2Proof

/-- The three fields of a step word, `oooo0000dddddddd` (R90). -/
structure Fields where
  /-- Bits 15:12, the operation code. -/
  op : BitVec 4
  /-- Bits 11:8, which must be zero. -/
  zero : BitVec 4
  /-- Bits 7:0, the operand byte. -/
  data : Byte
  deriving DecidableEq, Repr

/-- The operation codes the map of R93 gives a meaning; 0x0, 0x7, 0xD, 0xE and 0xF are reserved (R97). -/
def Fields.opDefined (f : Fields) : Bool :=
  (1 ≤ f.op.toNat && f.op.toNat ≤ 6) || (8 ≤ f.op.toNat && f.op.toNat ≤ 12)

/-- The must-be-zero field is zero (R90, R97). -/
def Fields.zeroClear (f : Fields) : Bool := f.zero == 0#4

/-- The data field is zero unless the operation has an operand: WRITE and LINE_RX only (R90, R97). -/
def Fields.dataClear (f : Fields) : Bool := f.op == 0x2#4 || f.op == 0xA#4 || f.data == 0#8

/-- The word is one of the table's: not reserved (R97). -/
def Fields.wellFormed (f : Fields) : Bool := f.opDefined && f.zeroClear && f.dataClear

end Sys2Proof
end

