-- ==== Sys2Proof/Decode.lean ====
section
/-! DEFINITION. Decoding and encoding of the step word (spec/30_encoding.md R90 to R98): total, reading nothing
but the word, refusing every reserved word by name; and the opcode map as mask and pattern rows (R93, R104). -/
namespace Sys2Proof

/-- Why a word is reserved (R97). -/
inductive DecodeError where
  /-- The operation code is 0x0, 0x7, 0xD, 0xE or 0xF. -/
  | reservedOp (op : BitVec 4)
  /-- The must-be-zero field is not zero. -/
  | zeroField
  /-- An operation without operand has a data byte other than 0x00. -/
  | strayData
  deriving DecidableEq, Repr

/-- The fields of a word (R90, R91): the operand byte is taken unchanged. -/
def fieldsOf (w : Word) : Fields :=
  ⟨w.extractLsb' 12 4, w.extractLsb' 8 4, w.extractLsb' 0 8⟩

/-- The word with these fields, `op` most significant (R90, R11). -/
def wordOf (f : Fields) : Word := f.op ++ f.zero ++ f.data

/-- An operation without operand: its data field must be 0x00 (R90, R97). -/
def noOperand (f : Fields) (i : Instr) : Except DecodeError Instr :=
  if f.data = 0#8 then .ok i else .error .strayData

/-- The operation of a word whose must-be-zero field is zero (R93). -/
def decodeFields (f : Fields) : Except DecodeError Instr :=
  match f.op.toNat with
  | 0x1 => noOperand f .init
  | 0x2 => .ok (.write f.data)
  | 0x3 => noOperand f .read
  | 0x4 => noOperand f .avail
  | 0x5 => noOperand f .gieClr
  | 0x6 => noOperand f .gieSet
  | 0x8 => noOperand f .isrRx
  | 0x9 => noOperand f .isrTx
  | 0xA => .ok (.lineRx f.data)
  | 0xB => noOperand f .lineTx
  | 0xC => noOperand f .mstep
  | _ => .error (.reservedOp f.op)

/-- Decode is total: a word is exactly one row of R93 or it is reserved (R95, R97). -/
def decode (w : Word) : Except DecodeError Instr :=
  if (fieldsOf w).zeroClear then decodeFields (fieldsOf w) else .error .zeroField

/-- The operation code of an operation (R93). -/
def opcodeOf : Instr → BitVec 4
  | .init => 0x1#4
  | .write _ => 0x2#4
  | .read => 0x3#4
  | .avail => 0x4#4
  | .gieClr => 0x5#4
  | .gieSet => 0x6#4
  | .isrRx => 0x8#4
  | .isrTx => 0x9#4
  | .lineRx _ => 0xA#4
  | .lineTx => 0xB#4
  | .mstep => 0xC#4

/-- The data byte of an operation: the operand of WRITE and LINE_RX, 0x00 for every other (R90, R91). -/
def dataOf : Instr → Byte
  | .write d => d
  | .lineRx d => d
  | .init | .read | .avail | .gieClr | .gieSet | .isrRx | .isrTx | .lineTx | .mstep => 0#8

/-- The step word of an operation (R90, R93). -/
def encode (i : Instr) : Word := wordOf ⟨opcodeOf i, 0#4, dataOf i⟩

/-- The command words, operation codes 0x1 to 0x6 (R92); the others are schedule labels. -/
def isCommand : Instr → Bool
  | .init | .write _ | .read | .avail | .gieClr | .gieSet => true
  | .isrRx | .isrTx | .lineRx _ | .lineTx | .mstep => false

/-- One row of the opcode map as the table writes it (R93, R104). -/
structure OpcodeRow where
  /-- The row's mnemonic. -/
  mnemonic : String
  /-- The pattern `match`. -/
  pattern : Word
  /-- The mask: a word `w` selects the row when `w` masked equals the pattern. -/
  mask : Word
  deriving DecidableEq, Repr

/-- The eleven rows of R93. -/
def opcodeMap : List OpcodeRow :=
  [⟨"INIT", 0x1000#16, 0xFFFF#16⟩, ⟨"WRITE", 0x2000#16, 0xFF00#16⟩, ⟨"READ", 0x3000#16, 0xFFFF#16⟩,
   ⟨"AVAIL", 0x4000#16, 0xFFFF#16⟩, ⟨"GIE_CLR", 0x5000#16, 0xFFFF#16⟩, ⟨"GIE_SET", 0x6000#16, 0xFFFF#16⟩,
   ⟨"ISR_RX", 0x8000#16, 0xFFFF#16⟩, ⟨"ISR_TX", 0x9000#16, 0xFFFF#16⟩, ⟨"LINE_RX", 0xA000#16, 0xFF00#16⟩,
   ⟨"LINE_TX", 0xB000#16, 0xFFFF#16⟩, ⟨"MSTEP", 0xC000#16, 0xFFFF#16⟩]

/-- The mnemonic of an operation, as the table spells it (R93). -/
def mnemonicOf : Instr → String
  | .init => "INIT"
  | .write _ => "WRITE"
  | .read => "READ"
  | .avail => "AVAIL"
  | .gieClr => "GIE_CLR"
  | .gieSet => "GIE_SET"
  | .isrRx => "ISR_RX"
  | .isrTx => "ISR_TX"
  | .lineRx _ => "LINE_RX"
  | .lineTx => "LINE_TX"
  | .mstep => "MSTEP"

/-- The rows a word selects (R93, R104). -/
def rowsSelected (w : Word) : List String :=
  (opcodeMap.filter fun r => w &&& r.mask == r.pattern).map OpcodeRow.mnemonic

/-- The step word made of the lowest `nbits` bits of `w`, every higher bit 0 (log 22). -/
def tableWord (nbits w : Nat) : Word := BitVec.ofNat 16 (w % 2 ^ nbits)

/-- The host's question: what the decoder reads from an instruction whose bits are `w`. -/
def decodeTableWord (nbits w : Nat) : Option Instr :=
  match decode (tableWord nbits w) with
  | .ok i => some i
  | .error _ => none

end Sys2Proof
end

