-- ==== Sys2Proof/Config.lean ====
section
/-! DEFINITION. What an implementation fixes (spec/00_scope.md R10), what the mainline program
may answer, and the two free values of the model. -/
namespace Sys2Proof

/-- `INTW`, the width of the signed operand of WRITE_INT: 16 or 32 (R10, 92_eei_decisions.md D23). -/
inductive IntWidth where
  | w16
  | w32
  deriving DecidableEq, Repr

/-- `IrqOrder`: which handler is taken when both are enabled and pending. The spec leaves it open, every
order (R10, R242); the two other values are the switch R242 allows a model to offer. -/
inductive IrqOrder where
  /-- The spec's value: either handler may be taken first. -/
  | everyOrder
  /-- PRESUMED of the ATmega128 (R242, 93_implementation_defined.md G6): receive before transmit. -/
  | rxFirst
  /-- The other fixed order, offered beside `rxFirst`. -/
  | txFirst
  deriving DecidableEq, Repr

/-- The parameters of the block (R10). A capacity outside 2 to 256 is not a legal configuration and the
model rejects it (R129, R295, 93_implementation_defined.md U28): the bounds are part of the data, so that
no state holds an illegal one. -/
structure Config where
  /-- `C`, the number of slots of each ring buffer. -/
  capacity : Nat
  /-- `INTW`. -/
  intw : IntWidth
  /-- `IrqOrder`. -/
  irqOrder : IrqOrder
  /-- A one-slot buffer could never hold a byte (R129). -/
  capacity_ge : 2 ≤ capacity
  /-- An index must fit one byte (R65, R295). -/
  capacity_le : capacity ≤ 256
  deriving DecidableEq, Repr

/-- The spec's defaults (R10): `C = 64`, `INTW = 16`, every interrupt order. -/
def Config.default : Config := ⟨64, .w16, .everyOrder, by decide, by decide⟩

/-- What the mainline program answers in phase IDLE (R10, R96; 45_formatted_output.md R193, R197). -/
inductive Choice where
  /-- The program has ended: the mainline has no step. -/
  | halt
  /-- The next command word, any 16-bit word. -/
  | command (w : Word)
  /-- A pseudo-operation whose operand check fails. -/
  | refuseOperand
  deriving DecidableEq, Repr, Inhabited

/-- FREE VALUE (log 10). The mainline programs of the surrounding software as functions of the responses so far,
by number: R10 lets `P` be any function of the response list, so nothing constrains one. -/
opaque Config.freeProgram : Nat → List Word → Choice

/-- FREE VALUE (log 7). Which of the enabled steps the schedule takes at its `n`-th free choice: the spec
leaves the schedule open (20_memory.md R72, 60_exceptions.md R241, R242), so nothing constrains it. -/
opaque Config.freeChoice : Nat → Nat

end Sys2Proof
end

