-- ==== Sys2Proof/Machine/State.lean ====
section
/-! DEFINITION. The state of the block as plain data (spec/10_state.md R20), the marks (spec/60_exceptions.md
R231, R233), the arguments of a run (R47), the three outcomes' reasons, and the reset state (R46). -/
namespace Sys2Proof.Machine

/-- A storage space's contents, sparse: (slot, byte) pairs, slots strictly rising. A slot that is not listed
holds no value (R46, 20_memory.md R66). -/
abbrev Memory := List Host.Cell

/-- The two storage spaces (20_memory.md R60). -/
inductive Space where
  /-- The receive buffer's slots. -/
  | rxbuf
  /-- The transmit buffer's slots. -/
  | txbuf
  deriving DecidableEq, Repr

/-- The four agents (00_scope.md R3). -/
inductive Agent where
  /-- The mainline. -/
  | mainline
  /-- The receive interrupt handler. -/
  | rxh
  /-- The transmit interrupt handler. -/
  | txh
  /-- The serial line hardware. -/
  | line
  deriving DecidableEq, Repr

/-- The mainline's four latches, `x[0]` to `x[3]` (R28). -/
inductive Latch where
  /-- `M.b` -/
  | b
  /-- `M.nt` -/
  | nt
  /-- `M.v` -/
  | v
  /-- `M.res` -/
  | res
  deriving DecidableEq, Repr

/-- What a read of an absent value names (60_exceptions.md R231: space and slot; for the line data registers
and the latches, which R46 and R66 treat alike, the register's name: log 2). -/
inductive Location where
  /-- A slot of a storage space. -/
  | slot (space : Space) (i : Nat)
  /-- `LINE.rx_data` -/
  | lineRxData
  /-- `LINE.tx_data` -/
  | lineTxData
  /-- A mainline latch. -/
  | latch (l : Latch)
  deriving DecidableEq, Repr

/-- The mark `FAULT` with its recorded value (R39, 60_exceptions.md R231). -/
inductive FaultMark where
  /-- Code 1: ISR_TX was taken with `TX` empty; records `TX.head`. -/
  | txEmptyPop (head : Nat)
  /-- Code 2: a byte handed to the transmit hardware while it was not ready; records the byte. -/
  | txDataOverwrite (v : Byte)
  /-- Code 3: a read of a location that holds no value; records the location. -/
  | readUnwritten (at_ : Location)
  deriving DecidableEq, Repr

/-- The mark `REFUSED` (R39, 60_exceptions.md R233). -/
inductive RefusalMark where
  /-- Code 1, `REF_RESERVED`. -/
  | reserved
  /-- Code 2, `REF_BEFORE_INIT`. -/
  | beforeInit
  /-- Code 3, `REF_REINIT`. -/
  | reinit
  /-- Code 4, `REF_OPERAND`. -/
  | operand
  deriving DecidableEq, Repr

/-- The micro-step sequencer `M.phase` (R30); the numbers are `phaseCode`'s. -/
inductive Phase where
  /-- No command in progress. -/
  | idle
  /-- INIT. -/
  | n1
  /-- WRITE: guarded fast path. -/
  | w1
  /-- WRITE: full test and spin. -/
  | w2
  /-- WRITE: store. -/
  | w3
  /-- WRITE: guarded commit. -/
  | w4
  /-- READ: empty test. -/
  | r1
  /-- READ: slot read. -/
  | r2
  /-- READ: head advance. -/
  | r3
  /-- AVAIL. -/
  | a1
  /-- GIE_SET. -/
  | s1
  /-- GIE_CLR. -/
  | k1
  deriving DecidableEq, Repr

/-- A ring buffer instance (R21). -/
structure Ring where
  /-- The slots. -/
  buf : Memory
  /-- Next slot to read. -/
  head : Nat
  /-- Next slot to write. -/
  tail : Nat
  deriving DecidableEq, Repr

/-- The line hardware's registers and status flags (R36, R37, R38, R41). `none` is the spec's "holds no
value" (R46; log 1). -/
structure Line where
  /-- `LINE.rx_data`, DR0. -/
  rxData : Option Byte
  /-- `LINE.rx_avail`, SR0. -/
  rxAvail : Bool
  /-- `LINE.tx_data`, DR1. -/
  txData : Option Byte
  /-- `LINE.tx_ready`, SR1. -/
  txReady : Bool
  deriving DecidableEq, Repr

/-- The mainline's command index, sequencer and latches (R28, R29, R30). `none` is the spec's "holds no
value" (R46; log 1). -/
structure Mainline where
  /-- `M.pc`, the number of commands issued. -/
  pc : Nat
  /-- `M.phase` -/
  phase : Phase
  /-- `M.b` = `x[0]`, the operand byte. -/
  b : Option Byte
  /-- `M.nt` = `x[1]`, the candidate next tail. -/
  nt : Option Nat
  /-- `M.v` = `x[2]`, the byte read. -/
  v : Option Byte
  /-- `M.res` = `x[3]`, the response. -/
  res : Option Word
  deriving DecidableEq, Repr

/-- The six ghost histories (R44). No transition's effect depends on one, but for the program, which R10 and
R96 make a function of `resp_log`. -/
structure Ghosts where
  /-- Bytes that have left on the wire. -/
  lineOut : List Byte
  /-- Bytes ISR_RX stored. -/
  rxAccepted : List Byte
  /-- Bytes ISR_RX dropped. -/
  rxDropped : List Byte
  /-- Bytes lost in the line hardware. -/
  rxHwLost : List Byte
  /-- Every response so far. -/
  respLog : List Word
  /-- Operands of the WRITEs issued. -/
  wrLog : List Byte
  deriving DecidableEq, Repr

/-- One node of a mainline program written out as an automaton (log 10): what to do here, and the node that follows
each response. -/
structure ProgNode where
  /-- What the mainline does at this node. -/
  choice : Choice
  /-- Successor by response. -/
  branches : List (Word × Nat)
  /-- Successor for every other response. -/
  otherwise : Nat
  deriving DecidableEq, Repr

/-- `P`, the mainline program (R10, R47), as plain data (log 10): a program written out as an automaton over the
responses, or any function of the response list. -/
inductive Program where
  /-- A finite automaton over the responses, from node 0. -/
  | nodes (ns : List ProgNode)
  /-- The `n`-th function of the response list, `Config.freeProgram n`, of which nothing is known. -/
  | free (n : Nat)
  deriving DecidableEq, Repr

/-- The state of the block (R20), then the arguments of the run (R47), then the model's own fields. -/
structure State where
  /-- The receive ring buffer. -/
  rx : Ring
  /-- The transmit ring buffer. -/
  tx : Ring
  /-- Global interrupt enable (R32). -/
  gie : Bool
  /-- Receive-interrupt enable (R33). -/
  rxie : Bool
  /-- The Transmit-Armed flag (R34). -/
  txie : Bool
  /-- INIT has completed (R35). -/
  inited : Bool
  /-- The line hardware. -/
  line : Line
  /-- The mainline. -/
  m : Mainline
  /-- `FAULT` (R39). -/
  fault : Option FaultMark
  /-- `REFUSED` (R39). -/
  refused : Option RefusalMark
  /-- The ghost histories (R44). -/
  ghost : Ghosts
  /-- Parameters of the block (R10, R47). -/
  cfg : Config
  /-- `P` (R47). -/
  program : Program
  /-- `line_in` (R47). -/
  lineIn : List Byte
  /-- Position reached in `line_in` (R47). -/
  linePos : Nat
  /-- The schedule still to be taken, as step words (R47, R103; log 7). -/
  trace : List Word
  /-- MODEL: how many steps the free schedule has chosen (log 7). -/
  draws : Nat
  /-- MODEL: the command words issued so far (log 13). -/
  cmdLog : List Word
  deriving DecidableEq, Repr

/-- Why the machine stops with a fault. -/
inductive Fault where
  /-- Raised by every step of a state whose `FAULT` mark is set: no agent has an enabled step any more (R39,
  R232). Safe: the model goes no further than the spec does. -/
  | stopped (m : FaultMark)
  /-- Raised by an access to a slot of number `C` or more, which does not exist (20_memory.md R60, R64); only
  in states no run reaches. Safe: the model stops (log 12). -/
  | noSuchSlot (space : Space) (i : Nat)
  deriving DecidableEq, Repr

/-- Why a step has no meaning. -/
inductive Refusal where
  /-- Raised by an arm of `exec` whose instruction has no meaning yet. Safe. -/
  | notModelled (mnemonic : String)
  /-- Raised by a step whose enabling condition does not hold: a trace that names it is not admissible (R103,
  R240; log 5). Safe. -/
  | notEnabled (a : Agent)
  /-- Raised by a mainline step once `REFUSED` is set: the mainline has no further step (R39, R233). Safe. -/
  | stopped (r : RefusalMark)
  /-- Raised by a step with the schedule's list empty and no agent enabled (70_reset_and_hazards.md R280;
  log 6). Safe. -/
  | quiescent
  deriving DecidableEq, Repr

/-- The state in which a run with these arguments begins: the values of R46, every buffer slot, line data
register and latch holding no value (log 1), the model's own fields at their beginnings (log 15). -/
def State.start (cfg : Config) (program : Program) (lineIn : List Byte) (trace : List Word) : State where
  rx := ⟨[], 0, 0⟩
  tx := ⟨[], 0, 0⟩
  gie := false
  rxie := false
  txie := false
  inited := false
  line := { rxData := none, rxAvail := false, txData := none, txReady := true }
  m := { pc := 0, phase := .idle, b := none, nt := none, v := none, res := none }
  fault := none
  refused := none
  ghost := { lineOut := [], rxAccepted := [], rxDropped := [], rxHwLost := [], respLog := [], wrLog := [] }
  cfg := cfg
  program := program
  lineIn := lineIn
  linePos := 0
  trace := trace
  draws := 0
  cmdLog := []

/-- The machine right after reset (R46, R270), with the spec's default parameters (R10) and no program, no
input and no schedule loaded (log 8). -/
def State.reset : State := State.start Config.default (.nodes []) [] []

end Sys2Proof.Machine
end

