-- ==== Sys2Proof/Machine/Operands.lean ====
section
/-! DEFINITION. Operand and response forms (spec/30_encoding.md R91, R100), the parameters computed from the
configuration (00_scope.md R10), the codes of phases, faults and refusals, and the program's answer (R10, R96). -/
namespace Sys2Proof.Machine

/-- `zext_16` of a byte (R11, R100). -/
def zext16 (b : Byte) : Word := b.setWidth 16

/-- A count as a 16-bit response (R100, 44_read_api.md R187). -/
def countWord (n : Nat) : Word := BitVec.ofNat 16 n

/-- The response of INIT, GIE_SET and GIE_CLR (R100). -/
def respDone : Word := 0x0000#16

/-- The response of WRITE (R100). -/
def respWritten : Word := 0x0001#16

/-- `NONE`, the response of READ on an empty buffer (R100). -/
def respNone : Word := 0xFFFF#16

/-- `IW`, the width of an index: max(1, ceil(log2 C)) (R10). -/
def indexWidth (cfg : Config) : Nat := max 1 (Nat.log2 (cfg.capacity - 1) + 1)

/-- `INTW` as a number (R10). -/
def intBits (cfg : Config) : Nat :=
  match cfg.intw with
  | .w16 => 16
  | .w32 => 32

/-- The least value of an `INTW`-bit signed integer (45_formatted_output.md R193). -/
def intMin (cfg : Config) : Int := -(2 ^ (intBits cfg - 1) : Nat)

/-- The greatest value of an `INTW`-bit signed integer (45_formatted_output.md R193). -/
def intMax (cfg : Config) : Int := (2 ^ (intBits cfg - 1) - 1 : Nat)

/-- `PMAX`, the largest precision of WRITE_FLOAT: 4 or 9 (R10, 45_formatted_output.md R202). -/
def pmax (cfg : Config) : Nat :=
  match cfg.intw with
  | .w16 => 4
  | .w32 => 9

/-- The number of a phase (10_state.md R30). -/
def phaseCode : Phase → BitVec 4
  | .idle => 0
  | .n1 => 1
  | .w1 => 2
  | .w2 => 3
  | .w3 => 4
  | .w4 => 5
  | .r1 => 6
  | .r2 => 7
  | .r3 => 8
  | .a1 => 9
  | .s1 => 10
  | .k1 => 11

/-- The code of a fault (60_exceptions.md R231). -/
def faultCode : FaultMark → Nat
  | .txEmptyPop _ => 1
  | .txDataOverwrite _ => 2
  | .readUnwritten _ => 3

/-- The code of a refusal (60_exceptions.md R233). -/
def refusalCode : RefusalMark → Nat
  | .reserved => 1
  | .beforeInit => 2
  | .reinit => 3
  | .operand => 4

/-- The node of an automaton that follows node `n` on a response. -/
def successor (ns : List ProgNode) (n : Nat) (r : Word) : Nat :=
  match ns[n]? with
  | none => n
  | some node =>
    match node.branches.find? (fun b => b.1 == r) with
    | some b => b.2
    | none => node.otherwise

/-- An automaton's answer to a response history, from node 0; past its last node the answer is `halt` (log 10). -/
def automatonAnswer (ns : List ProgNode) (history : List Word) : Choice :=
  match ns[history.foldl (successor ns) 0]? with
  | some node => node.choice
  | none => .halt

/-- `P(resp_log)`: the program's answer to a response history (R10, R96, 10_state.md R29; log 10). -/
def answer (p : Program) (history : List Word) : Choice :=
  match p with
  | .nodes ns => automatonAnswer ns history
  | .free n => Config.freeProgram n history

/-- The straight-line program of a list of choices: its answer to a history of length `k` is the `k`-th
choice, `halt` past the end (95_test_vectors.md section 0). -/
def straightLine (choices : List Choice) : Program :=
  .nodes ((choices.zip (List.range choices.length)).map fun c => ⟨c.1, [], c.2 + 1⟩)

/-- The straight-line program of a list of command words. -/
def straightWords (ws : List Word) : Program := straightLine (ws.map Choice.command)

end Sys2Proof.Machine
end

