-- ==== Sys2Proof/Machine/Flags.lean ====
section
/-! DEFINITION. The derived conditions of the state (spec/10_state.md R40, R45) and when each agent's step is
enabled (60_exceptions.md R240, 46_init_and_line_interface.md R216, R218, 30_encoding.md R96, R103). -/
namespace Sys2Proof.Machine

/-- `(i + 1) mod C` (40_ring_buffer.md R126). -/
def advance (cfg : Config) (i : Nat) : Nat := (i + 1) % cfg.capacity

/-- The instance that lives in a storage space (10_state.md R21). -/
def ringOf (sp : Space) (s : State) : Ring :=
  match sp with
  | .rxbuf => s.rx
  | .txbuf => s.tx

/-- The buffer is empty: `head == tail` (R40, 40_ring_buffer.md R120). -/
def ringEmpty (sp : Space) (s : State) : Bool := (ringOf sp s).head == (ringOf sp s).tail

/-- The buffer is full: advancing `tail` by one (mod C) would equal `head` (R40, 40_ring_buffer.md R120). -/
def ringFull (sp : Space) (s : State) : Bool := advance s.cfg (ringOf sp s).tail == (ringOf sp s).head

/-- `irq_rx` (R40, 60_exceptions.md R238): a level. -/
def irqRx (s : State) : Bool := s.line.rxAvail && s.rxie

/-- `irq_tx` (R40, 60_exceptions.md R238): a level. -/
def irqTx (s : State) : Bool := s.line.txReady && s.txie

/-- ISR_RX is enabled (60_exceptions.md R240). The mainline's phase does not enter the condition. -/
def isrRxEnabled (s : State) : Bool := s.fault.isNone && s.gie && irqRx s

/-- ISR_TX is enabled (60_exceptions.md R240). -/
def isrTxEnabled (s : State) : Bool := s.fault.isNone && s.gie && irqTx s

/-- The next unconsumed byte of `line_in` (46_init_and_line_interface.md R216). -/
def nextInput (s : State) : Option Byte := s.lineIn[s.linePos]?

/-- LINE_RX d is enabled: INITED, no fault, and `d` is the next byte of `line_in`
(46_init_and_line_interface.md R216, R217). -/
def lineRxEnabled (d : Byte) (s : State) : Bool :=
  s.fault.isNone && s.inited && nextInput s == some d

/-- LINE_TX is enabled (46_init_and_line_interface.md R218). -/
def lineTxEnabled (s : State) : Bool := s.fault.isNone && !s.line.txReady

/-- No mark is set: the mainline may step (10_state.md R39). -/
def unmarked (s : State) : Bool := s.fault.isNone && s.refused.isNone

/-- `cmd_ready`: phase IDLE and no mark set (10_state.md R45, 30_encoding.md R96). -/
def cmdReady (s : State) : Bool := unmarked s && s.m.phase == .idle

/-- What the program answers now (30_encoding.md R96). -/
def nextChoice (s : State) : Choice := answer s.program s.ghost.respLog

/-- The mainline has a step: a phase in progress, or in phase IDLE an answer other than `halt`
(30_encoding.md R96, R103). -/
def mainlineHasStep (s : State) : Bool := s.m.phase != .idle || nextChoice s != .halt

/-- MSTEP is enabled (30_encoding.md R103). -/
def mstepEnabled (s : State) : Bool := unmarked s && mainlineHasStep s

/-- The step an operation names is enabled in the state: a command word when the command port is ready, a
label when its transition's condition holds (30_encoding.md R92, R96, R103; 60_exceptions.md R240). -/
def enabled (i : Instr) (s : State) : Bool :=
  match i with
  | .init | .write _ | .read | .avail | .gieClr | .gieSet => cmdReady s
  | .isrRx => isrRxEnabled s
  | .isrTx => isrTxEnabled s
  | .lineRx d => lineRxEnabled d s
  | .lineTx => lineTxEnabled s
  | .mstep => mstepEnabled s

end Sys2Proof.Machine
end

