-- ==== Sys2Proof/Machine/Ops.lean ====
section
/-! DEFINITION. The named operations every meaning is made of: storage access (spec/20_memory.md R60 to R67),
the line registers (R68, R69), marks (60_exceptions.md R232, R233), handler entry and return (R244, R246), the
guard (20_memory.md R74), completing a command (30_encoding.md R100), and one agent's step. -/
namespace Sys2Proof.Machine

/-- Why a step's body is abandoned, every write of it discarded (60_exceptions.md R232). -/
inductive Abort where
  /-- The spec's `raise`: the `FAULT` mark is to be set. -/
  | raised (m : FaultMark)
  /-- A slot of number `C` or more (log 12). -/
  | noSlot (space : Space) (i : Nat)
  deriving DecidableEq, Repr

/-! ## Storage -/

/-- The byte a storage space holds at a slot, if it holds one. -/
def Memory.lookup : Memory → Nat → Option Byte
  | [], _ => none
  | c :: rest, i => if c.1 = i then some c.2 else Memory.lookup rest i

/-- Storage with the byte at a slot replaced; slots stay strictly rising. -/
def Memory.store : Memory → Nat → Byte → Memory
  | [], i, v => [(i, v)]
  | c :: rest, i, v =>
    if i < c.1 then (i, v) :: c :: rest
    else if i = c.1 then (i, v) :: rest
    else c :: Memory.store rest i v

/-- The canonical form: slots strictly rising. An unlisted slot holds no value, so no entry can equal what an
unlisted slot reads as. -/
abbrev Memory.wf (m : Memory) : Prop := m.Pairwise fun a b => a.1 < b.1

/-- Every listed slot exists: its number is below `C` (20_memory.md R60). -/
abbrev Memory.within (c : Nat) (m : Memory) : Prop := ∀ cell ∈ m, cell.1 < c

/-- The state with the instance of a storage space replaced. -/
def setRing (sp : Space) (r : Ring) (s : State) : State :=
  match sp with
  | .rxbuf => { s with rx := r }
  | .txbuf => { s with tx := r }

/-- `MemRead(S, i, 1)` (00_scope.md R12, 20_memory.md R66). -/
def memRead (sp : Space) (i : Nat) (s : State) : Except Abort Byte :=
  if i < s.cfg.capacity then
    match Memory.lookup (ringOf sp s).buf i with
    | some v => .ok v
    | none => .error (.raised (.readUnwritten (.slot sp i)))
  else .error (.noSlot sp i)

/-- `MemWrite(S, i, 1, v)` (00_scope.md R12). -/
def memWrite (sp : Space) (i : Nat) (v : Byte) (s : State) : Except Abort State :=
  if i < s.cfg.capacity then
    .ok (setRing sp { ringOf sp s with buf := Memory.store (ringOf sp s).buf i v } s)
  else .error (.noSlot sp i)

/-- Reading a register that may hold no value: an absent one faults (10_state.md R46, 20_memory.md R66;
log 2). -/
def readRegister {α : Type} (at_ : Location) (r : Option α) : Except Abort α :=
  match r with
  | some v => .ok v
  | none => .error (.raised (.readUnwritten at_))

/-! ## The line registers -/

/-- `LineRead()`: `LINE.rx_data`, and in the same action `LINE.rx_avail <- 0` (20_memory.md R68). -/
def lineRead (s : State) : Except Abort (Byte × State) :=
  match readRegister .lineRxData s.line.rxData with
  | .ok v => .ok (v, { s with line := { s.line with rxAvail := false } })
  | .error a => .error a

/-- `LineWrite(v)`: `LINE.tx_data <- v` and in the same action `LINE.tx_ready <- 0`, if the hardware is ready;
else `FLT_TX_DATA_OVERWRITE` (20_memory.md R69). -/
def lineWrite (v : Byte) (s : State) : Except Abort State :=
  if s.line.txReady then .ok { s with line := { s.line with txData := some v, txReady := false } }
  else .error (.raised (.txDataOverwrite v))

/-! ## Marks -/

/-- The effect of a fault: the state before the step plus the mark (60_exceptions.md R232). -/
def raiseMark (m : FaultMark) (s : State) : State := { s with fault := some m }

/-- The effect of a refusal: the mark, and nothing else changes (60_exceptions.md R233). -/
def refuseMark (r : RefusalMark) (s : State) : State := { s with refused := some r }

/-! ## Taking an interrupt and returning from it -/

/-- Handler entry: `GIE <- 0`; nothing is saved (60_exceptions.md R244). -/
def handlerEntry (s : State) : State := { s with gie := false }

/-- Handler return: `GIE <- 1`, and the mainline goes on at `M.phase` (60_exceptions.md R246). -/
def handlerReturn (s : State) : State := { s with gie := true }

/-- `guard`: `s <- GIE; GIE <- 0; body; GIE <- s`, the prior value restored, never set (20_memory.md R74,
70_reset_and_hazards.md R291). -/
def guarded (body : State → Except Abort State) (s : State) : Except Abort State :=
  match body { s with gie := false } with
  | .ok t => .ok { t with gie := s.gie }
  | .error a => .error a

/-! ## The mainline's sequencer -/

/-- `M.phase <- p` (10_state.md R30). -/
def setPhase (p : Phase) (s : State) : State := { s with m := { s.m with phase := p } }

/-- A command completes: `x[3] <- r; resp_log <- resp_log ++ [r]; M.phase <- IDLE` (30_encoding.md R100). -/
def respond (r : Word) (s : State) : State :=
  { s with
    m := { s.m with res := some r, phase := .idle }
    ghost := { s.ghost with respLog := s.ghost.respLog ++ [r] } }

/-! ## One agent's step -/

/-- What a step answers: the state after its body, or the state before it with the `FAULT` mark set
(60_exceptions.md R232). -/
def settle (s : State) (result : Except Abort State) : Host.Outcome State Fault Refusal :=
  match result with
  | .ok t => .next t
  | .error (.raised m) => .next (raiseMark m s)
  | .error (.noSlot sp i) => .fault (.noSuchSlot sp i)

/-- A step of an agent: none once `FAULT` is set (10_state.md R39; log 3), the body when its condition holds, and
otherwise the step is not enabled (log 5). -/
def agentStep (a : Agent) (condition : Bool) (body : State → Except Abort State) (s : State) :
    Host.Outcome State Fault Refusal :=
  match s.fault with
  | some m => .fault (.stopped m)
  | none => if condition then settle s (body s) else .refused (.notEnabled a)

/-- A step of the mainline: also none once `REFUSED` is set (10_state.md R39, 60_exceptions.md R233; log 4). -/
def mainlineStep (condition : Bool) (body : State → Except Abort State) (s : State) :
    Host.Outcome State Fault Refusal :=
  match s.refused with
  | none => agentStep .mainline condition body s
  | some r =>
    match s.fault with
    | some m => .fault (.stopped m)
    | none => .refused (.stopped r)

end Sys2Proof.Machine
end

