-- ==== Sys2Proof/Machine/Command.lean ====
section
/-! DEFINITION. Command issue (spec/30_encoding.md R96, R97) and the meanings of the six command words: each is
presented on the command port, where the mainline's issue step takes it (R92); its phases are the mainline's later
steps (Machine/WritePhases.lean, ReadPhases.lean, InitPhases.lean, Mstep.lean; log 9). -/
namespace Sys2Proof.Machine

/-- The first phase of a command, by operation code; codes outside 1 to 6 are no command (R96). -/
def firstPhase (op : BitVec 4) : Option Phase :=
  match op.toNat with
  | 1 => some .n1
  | 2 => some .w1
  | 3 => some .r1
  | 4 => some .a1
  | 5 => some .k1
  | 6 => some .s1
  | _ => none

/-- The tests of command issue, in R96's order (60_exceptions.md R257): the refusal, or the command's first phase.
A reserved word and a schedule label are refused alike (R97). -/
def issueCheck (f : Fields) (inited : Bool) : Except RefusalMark Phase :=
  match firstPhase f.op with
  | none => .error .reserved
  | some p =>
    if f.zero ≠ 0#4 ∨ (f.op ≠ 2#4 ∧ f.data ≠ 0#8) then .error .reserved
    else if (f.op = 2#4 ∨ f.op = 3#4 ∨ f.op = 4#4) ∧ inited = false then .error .beforeInit
    else if f.op = 1#4 ∧ inited = true then .error .reinit
    else .ok p

/-- An accepted command is latched and its first phase entered (R96). -/
def accept (w : Word) (p : Phase) (s : State) : State :=
  { s with
    m := { s.m with b := some (fieldsOf w).data, pc := s.m.pc + 1, phase := p }
    ghost := { s.ghost with
      wrLog := if (fieldsOf w).op = 2#4 then s.ghost.wrLog ++ [(fieldsOf w).data] else s.ghost.wrLog }
    cmdLog := s.cmdLog ++ [w] }

/-- Command issue of a word, one atomic step (R96). -/
def issue (w : Word) (s : State) : State :=
  match issueCheck (fieldsOf w) s.inited with
  | .error r => refuseMark r s
  | .ok p => accept w p s

/-- The mainline presents a word on the command port (R92, 10_state.md R45): its issue step, taken in phase
IDLE. -/
def present (w : Word) (s : State) : Host.Outcome State Fault Refusal :=
  mainlineStep (s.m.phase == .idle) (fun t => .ok (issue w t)) s

/-- INIT on the command port (46_init_and_line_interface.md R211). -/
def execInit (s : State) : Host.Outcome State Fault Refusal := present (encode .init) s

/-- WRITE d on the command port (43_write_api.md R160). -/
def execWrite (d : Byte) (s : State) : Host.Outcome State Fault Refusal := present (encode (.write d)) s

/-- READ on the command port (44_read_api.md R182). -/
def execRead (s : State) : Host.Outcome State Fault Refusal := present (encode .read) s

/-- AVAIL on the command port (44_read_api.md R186). -/
def execAvail (s : State) : Host.Outcome State Fault Refusal := present (encode .avail) s

/-- GIE_CLR on the command port (46_init_and_line_interface.md R214). -/
def execGieClr (s : State) : Host.Outcome State Fault Refusal := present (encode .gieClr) s

/-- GIE_SET on the command port (46_init_and_line_interface.md R213). -/
def execGieSet (s : State) : Host.Outcome State Fault Refusal := present (encode .gieSet) s

end Sys2Proof.Machine
end

