-- ==== Sys2Proof/Machine/RingBuffer.lean ====
section
/-! DEFINITION. The Ring Buffer primitives (spec/40_ring_buffer.md R120 to R125): `try_push`, `try_pop`, `count`, and
the content of a buffer. R128 says which step realises which. -/
namespace Sys2Proof.Machine

/-- The number of buffered bytes, adding the capacity before subtracting where `tail < head` (R123, R124). -/
def ringCount (c : Nat) (r : Ring) : Nat :=
  if r.tail ≥ r.head then r.tail - r.head else r.tail + c - r.head

/-- `count(B)` (R123). -/
def count (sp : Space) (s : State) : Nat := ringCount s.cfg.capacity (ringOf sp s)

/-- The occupied range: `head, (head + 1) mod C, ..., (tail - 1) mod C` (R120). -/
def occupied (c : Nat) (r : Ring) : List Nat :=
  (List.range (ringCount c r)).map fun k => (r.head + k) % c

/-- The content of an instance: the bytes of the occupied range, in that order (R120). -/
def ringContent (c : Nat) (r : Ring) : List Byte := (occupied c r).filterMap (Memory.lookup r.buf)

/-- The content of a buffer of the state (R120). -/
def content (sp : Space) (s : State) : List Byte := ringContent s.cfg.capacity (ringOf sp s)

/-- `try_push(B, byte)` (R121): `none` when the buffer is full, and then nothing has changed. -/
def tryPush (sp : Space) (v : Byte) (s : State) : Except Abort (Option State) :=
  let nt := advance s.cfg (ringOf sp s).tail
  if nt = (ringOf sp s).head then .ok none
  else
    match memWrite sp (ringOf sp s).tail v s with
    | .ok t => .ok (some (setRing sp { ringOf sp t with tail := nt } t))
    | .error a => .error a

/-- `try_pop(B)` (R122): `none` when the buffer is empty, and then nothing has changed. -/
def tryPop (sp : Space) (s : State) : Except Abort (Option (Byte × State)) :=
  if (ringOf sp s).head = (ringOf sp s).tail then .ok none
  else
    match memRead sp (ringOf sp s).head s with
    | .ok v => .ok (some (v, setRing sp { ringOf sp s with head := advance s.cfg (ringOf sp s).head } s))
    | .error a => .error a

end Sys2Proof.Machine
end

