-- ==== Sys2Proof/Machine/Handlers.lean ====
section
/-! DEFINITION. The two interrupt handlers, each one atomic transition (spec/41_rx_handler.md R141,
42_tx_handler.md R151; 60_exceptions.md R243). -/
namespace Sys2Proof.Machine

/-- The body of ISR_RX (R141): the data register is read first on every path; a byte that finds `RX` full is
silently dropped (R142). -/
def isrRxBody (s : State) : Except Abort State :=
  match lineRead (handlerEntry s) with
  | .error a => .error a
  | .ok (v, t) =>
    match tryPush .rxbuf v t with
    | .error a => .error a
    | .ok none =>
      .ok (handlerReturn { t with ghost := { t.ghost with rxDropped := t.ghost.rxDropped ++ [v] } })
    | .ok (some u) =>
      .ok (handlerReturn { u with ghost := { u.ghost with rxAccepted := u.ghost.rxAccepted ++ [v] } })

/-- ISR_RX (R141), accepted as R240 says. -/
def execIsrRx (s : State) : Host.Outcome State Fault Refusal :=
  agentStep .rxh (isrRxEnabled s) isrRxBody s

/-- ISR_TX disarms itself when its pop has emptied `TX` (R151, R152). -/
def disarmIfEmpty (s : State) : State := if ringEmpty .txbuf s then { s with txie := false } else s

/-- The body of ISR_TX (R151): pop, hand the byte to the hardware, disarm if `TX` is now empty. An empty pop is
the fault `FLT_TX_EMPTY_POP` (R153). -/
def isrTxBody (s : State) : Except Abort State :=
  match tryPop .txbuf (handlerEntry s) with
  | .error a => .error a
  | .ok none => .error (.raised (.txEmptyPop s.tx.head))
  | .ok (some (v, t)) =>
    match lineWrite v t with
    | .error a => .error a
    | .ok u => .ok (handlerReturn (disarmIfEmpty u))

/-- ISR_TX (R151), accepted as R240 says. -/
def execIsrTx (s : State) : Host.Outcome State Fault Refusal :=
  agentStep .txh (isrTxEnabled s) isrTxBody s

end Sys2Proof.Machine
end

