-- ==== Sys2Proof/Machine/LineAgent.lean ====
section
/-! DEFINITION. The two transitions of the serial line hardware (spec/46_init_and_line_interface.md R216 to R218).
`GIE` does not affect them (R215). -/
namespace Sys2Proof.Machine

/-- The body of LINE_RX d: the byte into `LINE.rx_data` (R216), or, while the previous byte has not been read,
the arriving byte is lost and the older one kept (R217). The byte of `line_in` is consumed either way (R47). -/
def lineRxBody (d : Byte) (s : State) : Except Abort State :=
  if s.line.rxAvail then
    .ok { s with ghost := { s.ghost with rxHwLost := s.ghost.rxHwLost ++ [d] }, linePos := s.linePos + 1 }
  else
    .ok { s with line := { s.line with rxData := some d, rxAvail := true }, linePos := s.linePos + 1 }

/-- LINE_RX d (R216, R217). -/
def execLineRx (d : Byte) (s : State) : Host.Outcome State Fault Refusal :=
  agentStep .line (lineRxEnabled d s) (lineRxBody d) s

/-- The body of LINE_TX (R218): the byte in flight has left on the wire and the hardware is ready again. -/
def lineTxBody (s : State) : Except Abort State :=
  match readRegister .lineTxData s.line.txData with
  | .ok v => .ok { s with ghost := { s.ghost with lineOut := s.ghost.lineOut ++ [v] },
                          line := { s.line with txReady := true } }
  | .error a => .error a

/-- LINE_TX (R218). -/
def execLineTx (s : State) : Host.Outcome State Fault Refusal :=
  agentStep .line (lineTxEnabled s) lineTxBody s

end Sys2Proof.Machine
end

