-- ==== Sys2Proof/Machine/InitPhases.lean ====
section
/-! DEFINITION. The single phases of INIT, GIE_SET and GIE_CLR (spec/46_init_and_line_interface.md R212 to R214). -/
namespace Sys2Proof.Machine

/-- Phase N1 (R212): INIT writes `RXIE` and `INITED` and nothing else of the block. -/
def phaseN1 (s : State) : Except Abort State :=
  .ok (respond respDone { s with rxie := true, inited := true })

/-- Phase S1 (R213): `GIE <- 1`. -/
def phaseS1 (s : State) : Except Abort State :=
  .ok (respond respDone { s with gie := true })

/-- Phase K1 (R214): `GIE <- 0`. -/
def phaseK1 (s : State) : Except Abort State :=
  .ok (respond respDone { s with gie := false })

end Sys2Proof.Machine
end

