-- ==== Sys2Proof/Machine/ReadPhases.lean ====
section
/-! DEFINITION. The phases of READ (spec/44_read_api.md R183 to R185) and of AVAIL (R187). -/
namespace Sys2Proof.Machine

/-- Phase R1 (R183): the empty test; an empty read answers `NONE`. -/
def phaseR1 (s : State) : Except Abort State :=
  if ringEmpty .rxbuf s then .ok (respond respNone s) else .ok (setPhase .r2 s)

/-- Phase R2 (R184): the byte at `RX.head` into `M.v`. -/
def phaseR2 (s : State) : Except Abort State :=
  match memRead .rxbuf s.rx.head s with
  | .ok v => .ok { s with m := { s.m with v := some v, phase := .r3 } }
  | .error a => .error a

/-- Phase R3 (R185): advance `RX.head` and respond the byte. -/
def phaseR3 (s : State) : Except Abort State :=
  match readRegister (.latch .v) s.m.v with
  | .ok v => .ok (respond (zext16 v) { s with rx := { s.rx with head := advance s.cfg s.rx.head } })
  | .error a => .error a

/-- Phase A1 (R187): the count of `RX`, from one read of each index. -/
def phaseA1 (s : State) : Except Abort State :=
  .ok (respond (countWord (count .rxbuf s)) s)

end Sys2Proof.Machine
end

