-- ==== Sys2Proof/Machine/WritePhases.lean ====
section
/-! DEFINITION. The four phases of WRITE (spec/43_write_api.md R160 to R166). -/
namespace Sys2Proof.Machine

/-- Phase W1 (R161, R162): the guarded fast path `CS1`, taken when `TX` is empty and the hardware is ready. -/
def phaseW1 (s : State) : Except Abort State :=
  guarded (fun t =>
    if ringEmpty .txbuf t && t.line.txReady then
      match readRegister (.latch .b) t.m.b with
      | .ok v =>
        match lineWrite v t with
        | .ok u => .ok (respond respWritten u)
        | .error a => .error a
      | .error a => .error a
    else .ok (setPhase .w2 t)) s

/-- Phase W2 (R163): the full test; while `TX` is full the mainline stays here. -/
def phaseW2 (s : State) : Except Abort State :=
  let nt := advance s.cfg s.tx.tail
  .ok { s with m := { s.m with nt := some nt, phase := if nt = s.tx.head then .w2 else .w3 } }

/-- Phase W3 (R165): the byte is stored at the slot `TX.tail`, not yet advanced. -/
def phaseW3 (s : State) : Except Abort State :=
  match readRegister (.latch .b) s.m.b with
  | .ok v =>
    match memWrite .txbuf s.tx.tail v s with
    | .ok t => .ok (setPhase .w4 t)
    | .error a => .error a
  | .error a => .error a

/-- Phase W4 (R166): the guarded commit `CS2`: advance `TX.tail` and arm `TXIE` as one group. -/
def phaseW4 (s : State) : Except Abort State :=
  guarded (fun t =>
    match readRegister (.latch .nt) t.m.nt with
    | .ok nt => .ok (respond respWritten { t with tx := { t.tx with tail := nt }, txie := true })
    | .error a => .error a) s

end Sys2Proof.Machine
end

