-- ==== Sys2Proof/Machine/Mstep.lean ====
section
/-! DEFINITION. MSTEP, the mainline's next atomic step (spec/30_encoding.md R103): issue of the program's next command
in phase IDLE (R96), otherwise the current phase (10_state.md R30). -/
namespace Sys2Proof.Machine

/-- The mainline's step in phase IDLE: the program's answer to the responses so far (R96). A pseudo-operation
whose operand check fails is refused with `REF_OPERAND` (45_formatted_output.md R193, R197; log 17). -/
def issueNext (s : State) : State :=
  match nextChoice s with
  | .command w => issue w s
  | .refuseOperand => refuseMark .operand s
  | .halt => s

/-- The mainline's next step, by phase (10_state.md R30). -/
def mainlineBody (s : State) : Except Abort State :=
  match s.m.phase with
  | .idle => .ok (issueNext s)
  | .n1 => phaseN1 s
  | .w1 => phaseW1 s
  | .w2 => phaseW2 s
  | .w3 => phaseW3 s
  | .w4 => phaseW4 s
  | .r1 => phaseR1 s
  | .r2 => phaseR2 s
  | .r3 => phaseR3 s
  | .a1 => phaseA1 s
  | .s1 => phaseS1 s
  | .k1 => phaseK1 s

/-- MSTEP (R103). -/
def execMstep (s : State) : Host.Outcome State Fault Refusal :=
  mainlineStep (mainlineHasStep s) mainlineBody s

end Sys2Proof.Machine
end

