-- ==== Sys2Proof/Machine/Dispatch.lean ====
section
/-! DEFINITION. One step of one operation: the command words are presented on the command port
(spec/30_encoding.md R92, R96); a label is the transition it names (R103). -/
namespace Sys2Proof.Machine

def exec (i : Instr) (s : State) : Host.Outcome State Fault Refusal :=
  match i with
  | .init => Sys2Proof.Machine.execInit s
  | .write d => Sys2Proof.Machine.execWrite d s
  | .read => Sys2Proof.Machine.execRead s
  | .avail => Sys2Proof.Machine.execAvail s
  | .gieClr => Sys2Proof.Machine.execGieClr s
  | .gieSet => Sys2Proof.Machine.execGieSet s
  | .isrRx => Sys2Proof.Machine.execIsrRx s
  | .isrTx => Sys2Proof.Machine.execIsrTx s
  | .lineRx d => Sys2Proof.Machine.execLineRx d s
  | .lineTx => Sys2Proof.Machine.execLineTx s
  | .mstep => Sys2Proof.Machine.execMstep s

end Sys2Proof.Machine
end

