-- ==== Sys2Proof/Machine/Schedule.lean ====
section
/-! DEFINITION. Which step comes next (spec/20_memory.md R72, 30_encoding.md R103): the first word of the schedule's
list, or, where the list is empty, one of the enabled labels, chosen by the free value (log 7). -/
namespace Sys2Proof.Machine

/-- The labels a free schedule may take now: every enabled one (R72), less the handler a fixed interrupt order
would make wait (60_exceptions.md R242; with the spec's `everyOrder` none is left out; log 16). -/
def candidates (s : State) : List Instr :=
  let rxWaits := s.cfg.irqOrder == .txFirst && isrTxEnabled s
  let txWaits := s.cfg.irqOrder == .rxFirst && isrRxEnabled s
  (if mstepEnabled s then [.mstep] else [])
    ++ (if isrRxEnabled s && !rxWaits then [.isrRx] else [])
    ++ (if isrTxEnabled s && !txWaits then [.isrTx] else [])
    ++ (match nextInput s with
        | some d => if lineRxEnabled d s then [.lineRx d] else []
        | none => [])
    ++ (if lineTxEnabled s then [.lineTx] else [])

/-- What a step fetches. -/
inductive Fetched where
  /-- An operation, and the state with the schedule moved past it. -/
  | run (i : Instr) (s : State)
  /-- A reserved word: it is presented on the command port (R97; log 18). -/
  | presented (w : Word) (s : State)
  /-- No schedule left and no agent enabled (70_reset_and_hazards.md R280). -/
  | nothing
  deriving DecidableEq, Repr

/-- The next step of the schedule. -/
def fetch (s : State) : Fetched :=
  match s.trace with
  | w :: rest =>
    match decode w with
    | .ok i => .run i { s with trace := rest }
    | .error _ => .presented w { s with trace := rest }
  | [] =>
    match (candidates s)[Config.freeChoice s.draws % (candidates s).length]? with
    | some i => .run i { s with draws := s.draws + 1 }
    | none => .nothing

/-- What a step answers where it fetches nothing: the block is quiescent (70_reset_and_hazards.md R280; log 6);
a faulted state is stopped (60_exceptions.md R232). -/
def stopQuiescent (s : State) : Host.Outcome State Fault Refusal :=
  match s.fault with
  | some m => .fault (.stopped m)
  | none => .refused .quiescent

/-- A step word placed where the next step is fetched from: in front of the schedule (log 8). -/
def placeWord (s : State) (w : Word) : State := { s with trace := w :: s.trace }

end Sys2Proof.Machine
end

