-- ==== Sys2Proof/Machine/Step.lean ====
section
/-! DEFINITION. One step of the block: one agent's atomic step (spec/20_memory.md R72), the one the schedule names. -/
namespace Sys2Proof.Machine

/-- One step: the schedule's next word, run as its operation. -/
def step (s : State) : Host.Outcome State Fault Refusal :=
  match fetch s with
  | .run i t => exec i t
  | .presented w t => present w t
  | .nothing => stopQuiescent s

/-- The state with a step word placed where `step` fetches its next one (log 8). -/
def State.withFetchWord (s : State) (nbits w : Nat) : State := placeWord s (tableWord nbits w)

end Sys2Proof.Machine
end

