-- ==== Sys2Proof/Machine/Assembly.lean ====
section
/-! DEFINITION. The written form of commands and labels (spec/30_encoding.md R101): a mnemonic in capitals, for WRITE
and LINE_RX one operand (a hex byte, a decimal number, or a quoted ASCII character), one to a line or separated by
`;`, a comment after `--` (log 23). -/
namespace Sys2Proof.Machine

/-- The digit of a number below 16, in capitals. -/
def hexChar (n : Nat) : Char :=
  if n < 10 then Char.ofNat (48 + n) else Char.ofNat (55 + n)

/-- The value of a hexadecimal digit, in capitals or not. -/
def hexValue (c : Char) : Option Nat :=
  if 48 ≤ c.toNat ∧ c.toNat ≤ 57 then some (c.toNat - 48)
  else if 65 ≤ c.toNat ∧ c.toNat ≤ 70 then some (c.toNat - 55)
  else if 97 ≤ c.toNat ∧ c.toNat ≤ 102 then some (c.toNat - 87)
  else none

/-- The value of a decimal digit. -/
def decValue (c : Char) : Option Nat :=
  if 48 ≤ c.toNat ∧ c.toNat ≤ 57 then some (c.toNat - 48) else none

/-- A number in a base, read from its digits, most significant first. -/
def readDigits (base : Nat) (value : Char → Option Nat) : Nat → List Char → Option Nat
  | acc, [] => some acc
  | acc, c :: rest =>
    match value c with
    | some d => readDigits base value (acc * base + d) rest
    | none => none

/-- A number 0 to 255 as a byte. -/
def byteOfNat (n : Nat) : Option Byte := if n < 256 then some (BitVec.ofNat 8 n) else none

/-- An operand: `0x41`, `65` or `'A'` (R101). DESIGN CHOICE (log 23): R101 shows a hex byte with two digits only;
one of a single digit is read too, `0x4` as `0x04`. -/
def parseOperand (cs : List Char) : Option Byte :=
  match cs with
  | ['\'', c, '\''] => if c.toNat < 128 then byteOfNat c.toNat else none
  | ['0', 'x', h] => (hexValue h).bind byteOfNat
  | ['0', 'x', h, l] => (readDigits 16 hexValue 0 [h, l]).bind byteOfNat
  | [] => none
  | digits => (readDigits 10 decValue 0 digits).bind byteOfNat

/-- A statement's tokens as an operation (R101). -/
def parseTokens (ts : List (List Char)) : Option Instr :=
  match ts with
  | [mn] =>
    [Instr.init, .read, .avail, .gieClr, .gieSet, .isrRx, .isrTx, .lineTx, .mstep].find?
      fun i => (mnemonicOf i).toList == mn
  | [mn, operand] =>
    if mn = (mnemonicOf (.write 0)).toList then (parseOperand operand).map Instr.write
    else if mn = (mnemonicOf (.lineRx 0)).toList then (parseOperand operand).map Instr.lineRx
    else none
  | _ => none

/-- A token of the written form: a word, or the end of a statement. -/
inductive Token where
  /-- A maximal run of characters other than blanks and separators. -/
  | chars (cs : List Char)
  /-- A line end or `;`. -/
  | stop
  deriving DecidableEq, Repr

/-- The word read so far, if there is one. -/
def flushToken (cur : List Char) : List Token :=
  match cur with
  | [] => []
  | _ => [.chars cur]

/-- The tokens of a text: `cur` is the word being read, `comment` is set from `--` to the line end. A quoted
character is part of its word, whatever it is. -/
def tokens : List Char → List Char → Bool → List Token
  | [], cur, _ => flushToken cur
  | '\n' :: rest, cur, _ => flushToken cur ++ .stop :: tokens rest [] false
  | _ :: rest, cur, true => tokens rest cur true
  | '\'' :: c :: '\'' :: rest, cur, false => tokens rest (cur ++ ['\'', c, '\'']) false
  | '-' :: '-' :: rest, cur, false => flushToken cur ++ tokens rest [] true
  | ';' :: rest, cur, false => flushToken cur ++ .stop :: tokens rest [] false
  | ' ' :: rest, cur, false => flushToken cur ++ tokens rest [] false
  | '\t' :: rest, cur, false => flushToken cur ++ tokens rest [] false
  | c :: rest, cur, false => tokens rest (cur ++ [c]) false

/-- The statements of a token list, each the list of its words; empty statements are passed over. -/
def statements : List Token → List (List Char) → List (List (List Char))
  | [], [] => []
  | [], cur => [cur]
  | .stop :: rest, [] => statements rest []
  | .stop :: rest, cur => cur :: statements rest []
  | .chars cs :: rest, cur => statements rest (cur ++ [cs])

/-- A text as a list of operations, or nothing if one of its statements is none (R101). -/
def parseProgram (text : List Char) : Option (List Instr) :=
  (statements (tokens text [] false) []).mapM parseTokens

/-- The written form of an operation, its operand as a hex byte (R101). -/
def render (i : Instr) : List Char :=
  let operand (d : Byte) : List Char :=
    [' ', '0', 'x', hexChar (d.toNat / 16), hexChar (d.toNat % 16)]
  match i with
  | .write d => (mnemonicOf i).toList ++ operand d
  | .lineRx d => (mnemonicOf i).toList ++ operand d
  | .init | .read | .avail | .gieClr | .gieSet | .isrRx | .isrTx | .lineTx | .mstep =>
    (mnemonicOf i).toList

/-- The source's own spelling of a command of the core (R101): `init()`, `write(b)`, `read()`, `available()`.
The other operations have none. -/
def sourceName (i : Instr) : Option String :=
  match i with
  | .init => some "init()"
  | .write _ => some "write(b)"
  | .read => some "read()"
  | .avail => some "available()"
  | .gieClr | .gieSet | .isrRx | .isrTx | .lineRx _ | .lineTx | .mstep => none

end Sys2Proof.Machine
end

