-- ==== Sys2Proof/Machine/Format.lean ====
section
/-! DEFINITION. The formatted-output pseudo-operations (spec/45_formatted_output.md R190 to R205): each is the list of
WRITE commands it issues, or a refusal with nothing written. They have no step word (30_encoding.md R102); a program
that uses them is compiled into the mainline program (log 17). -/
namespace Sys2Proof.Machine

/-- The ASCII code of a decimal digit (00_scope.md R11; log 19). -/
def digitByte (n : Nat) : Byte := BitVec.ofNat 8 (0x30 + n % 10)

/-- The loop of `dec` (R194): repeated division and modulo, filled from the end backward. `fuel` bounds the
number of digits. -/
def digitsLoop : Nat → Nat → List Byte → List Byte
  | 0, _, ds => ds
  | fuel + 1, m, ds =>
    if m / 10 = 0 then digitByte m :: ds else digitsLoop fuel (m / 10) (digitByte m :: ds)

/-- The decimal digits of a natural, most significant first, one digit for 0 (R194). -/
def decNat (m : Nat) : List Byte := digitsLoop (m + 1) m []

/-- `dec(value)` (R194): `-` exactly for a negative value, then the digits of the magnitude, taken as a natural
so that the minimum value does not overflow (R195). -/
def dec (value : Int) : List Byte := (if value < 0 then [0x2D#8] else []) ++ decNat value.natAbs

/-- The operand of WRITE_FLOAT (R197, R202; log 20): a finite number read as the exact rational it denotes, or not
finite. A negative zero is the rational 0 (R200). -/
inductive FloatOperand where
  /-- A finite number. -/
  | finite (q : Rat)
  /-- Not a number. -/
  | nan
  /-- An infinity. -/
  | infinite (negative : Bool)
  deriving DecidableEq, Repr

/-- A pseudo-operation (30_encoding.md R102). -/
inductive PseudoOp where
  /-- `WRITE_STRING text`, the text absent or a finite byte list (R190, R192). -/
  | writeString (text : Option (List Byte))
  /-- `WRITE_INT value` (R193). -/
  | writeInt (value : Int)
  /-- `WRITE_FLOAT value, precision` (R197). -/
  | writeFloat (value : FloatOperand) (precision : Nat)
  deriving DecidableEq, Repr

/-- The bytes WRITE_STRING writes: each byte in order, none for an absent text (R190, R191). -/
def stringBytes (text : Option (List Byte)) : List Byte :=
  match text with
  | none => []
  | some bytes => bytes

/-- The bytes WRITE_INT writes, or a refusal of a value that is no `INTW`-bit integer (R193). -/
def intBytes (cfg : Config) (value : Int) : Except RefusalMark (List Byte) :=
  if intMin cfg ≤ value ∧ value ≤ intMax cfg then .ok (stringBytes (some (dec value)))
  else .error .operand

/-- `floor(a)` of the magnitude of a rational (R197). -/
def integerPart (q : Rat) : Nat := q.num.natAbs / q.den

/-- `floor((a - ip) * 10^precision)`, exact, truncated toward zero (R197, R199). -/
def fractionPart (q : Rat) (precision : Nat) : Nat := q.num.natAbs % q.den * 10 ^ precision / q.den

/-- Exactly `precision` digits of `f`, most significant first, padded with zeros on the left (R197, R198). -/
def fractionDigits : Nat → Nat → List Byte
  | 0, _ => []
  | k + 1, f => digitByte (f / 10 ^ k) :: fractionDigits k f

/-- The bytes WRITE_FLOAT writes, or a refusal, every check coming before the first WRITE (R197). -/
def floatBytes (cfg : Config) (value : FloatOperand) (precision : Nat) :
    Except RefusalMark (List Byte) :=
  match value with
  | .nan => .error .operand
  | .infinite _ => .error .operand
  | .finite q =>
    if precision > pmax cfg then .error .operand
    else
      match intBytes cfg (integerPart q) with
      | .error r => .error r
      | .ok ds =>
        .ok ((if q < 0 then [0x2D#8] else []) ++ ds ++
          (if precision > 0 then 0x2E#8 :: fractionDigits precision (fractionPart q precision) else []))

/-- The WRITE operands of a pseudo-operation, in order, or its refusal (R190, R193, R197). -/
def pseudoBytes (cfg : Config) (op : PseudoOp) : Except RefusalMark (List Byte) :=
  match op with
  | .writeString text => .ok (stringBytes text)
  | .writeInt value => intBytes cfg value
  | .writeFloat value precision => floatBytes cfg value precision

/-- `count_written`: the number of WRITE commands of the expansion (30_encoding.md R102, R190, R193, R197). -/
def countWritten (cfg : Config) (op : PseudoOp) : Except RefusalMark Nat :=
  match pseudoBytes cfg op with
  | .ok bytes => .ok bytes.length
  | .error r => .error r

/-- The size of the software's scratch buffer: the most digits, a sign and a terminator (R196). -/
def scratchBytes (cfg : Config) : Nat := (decNat (2 ^ (intBits cfg - 1))).length + 1 + 1

/-- One statement of a mainline program as the surrounding software writes it (30_encoding.md R101, R102). -/
inductive SourceOp where
  /-- A command word, any 16-bit word. -/
  | command (w : Word)
  /-- A pseudo-operation. -/
  | pseudo (op : PseudoOp)
  deriving DecidableEq, Repr

/-- The mainline's choices for one statement: a pseudo-operation is one WRITE per byte, or one refusal. -/
def expand (cfg : Config) (op : SourceOp) : List Choice :=
  match op with
  | .command w => [.command w]
  | .pseudo p =>
    match pseudoBytes cfg p with
    | .ok bytes => bytes.map fun b => .command (encode (.write b))
    | .error _ => [.refuseOperand]

/-- The mainline program of a list of statements, pseudo-operations expanded (30_encoding.md R102). -/
def compileProgram (cfg : Config) (ops : List SourceOp) : Program :=
  straightLine ((ops.map (expand cfg)).flatten)

end Sys2Proof.Machine
end

