-- ==== Sys2Proof/Machine/Ports.lean ====
section
/-! DEFINITION. The ports of the block as a view of its state (spec/10_state.md R45) and the reset input (R46, R270).
`irq_rx`, `irq_tx` and `cmd_ready` are in Machine/Flags.lean. No transition reads a port (R45). -/
namespace Sys2Proof.Machine

/-- `rsp_word`: `M.res`. -/
def rspWord (s : State) : Option Word := s.m.res

/-- `rsp_valid` pulses when a command completes: between the states before and after one step (log 24). -/
def rspValid (before after : State) : Bool := before.ghost.respLog.length < after.ghost.respLog.length

/-- `line_rx_read` pulses when the block performs `LineRead()`, which clears `LINE.rx_avail` (log 24). -/
def lineRxRead (before after : State) : Bool := before.line.rxAvail && !after.line.rxAvail

/-- `line_tx_write` pulses when the block performs `LineWrite(v)`, which clears `LINE.tx_ready` (log 24). -/
def lineTxWrite (before after : State) : Bool := before.line.txReady && !after.line.txReady

/-- `line_tx_data`: `LINE.tx_data`. -/
def lineTxDataPort (s : State) : Option Byte := s.line.txData

/-- `rst`: the whole state takes the values of R46; the arguments of the run stay (R47, R270; log 25). DESIGN CHOICE
(log 25): the spec leaves open which schedule follows a reset; the rest of `trace` stays and the counter `draws` goes
on, so that every free choice after the reset has an argument no earlier choice had (log 7). -/
def assertReset (s : State) : State := { State.start s.cfg s.program s.lineIn s.trace with draws := s.draws }

end Sys2Proof.Machine
end

