-- ==== Sys2Proof/Safety.lean ====
section
/-! DEFINITION. What claims are stated in: traces (spec/30_encoding.md R103), quiescent and final states
(70_reset_and_hazards.md R280), the invariants (R283), the ordering equations (20_memory.md R79) and weak fairness of an
infinite run (70_reset_and_hazards.md R282). -/
namespace Sys2Proof.Machine

/-! ## Traces and ends of runs -/

/-- The steps of a trace, in order, up to the first that has no next state (30_encoding.md R103). A trace is
admissible in a state when this answers a next state. -/
def runTrace : List Instr → State → Host.Outcome State Fault Refusal
  | [], s => .next s
  | i :: rest, s =>
    match exec i s with
    | .next t => runTrace rest t
    | .fault r => .fault r
    | .refused r => .refused r

/-- A reserved word, in R97's words: a reserved operation code, a must-be-zero field that is not, or a data byte
other than 0x00 in an operation without operand (30_encoding.md R97). -/
def reservedWord (w : Word) : Bool :=
  [0x0#4, 0x7#4, 0xD#4, 0xE#4, 0xF#4].contains (fieldsOf w).op || (fieldsOf w).zero != 0#4 ||
    ((fieldsOf w).op != 0x2#4 && (fieldsOf w).op != 0xA#4 && (fieldsOf w).data != 0#8)

/-- No agent has an enabled step (70_reset_and_hazards.md R280). -/
def quiescent (s : State) : Bool :=
  !mstepEnabled s && !isrRxEnabled s && !isrTxEnabled s && !lineTxEnabled s &&
    (match nextInput s with
     | some d => !lineRxEnabled d s
     | none => true)

/-- The run has ended well (70_reset_and_hazards.md R280). -/
def final (s : State) : Bool :=
  quiescent s && unmarked s && s.m.phase == .idle && nextChoice s == .halt && ringEmpty .txbuf s &&
    s.line.txReady && !s.line.rxAvail

/-! ## Sequences of pushes and pops (40_ring_buffer.md R121, R122) -/

/-- The bytes pushed one after another; nothing where a push fails. -/
def pushAll (sp : Space) : List Byte → State → Option State
  | [], s => some s
  | b :: rest, s =>
    match tryPush sp b s with
    | .ok (some t) => pushAll sp rest t
    | .ok none => none
    | .error _ => none

/-- The bytes of `n` pops, in order, and the state after them; nothing where a pop fails. -/
def popAll (sp : Space) : Nat → State → Option (List Byte × State)
  | 0, s => some ([], s)
  | n + 1, s =>
    match tryPop sp s with
    | .ok (some (v, t)) => (popAll sp n t).map fun r => (v :: r.1, r.2)
    | .ok none => none
    | .error _ => none

/-! ## Invariants (70_reset_and_hazards.md R283) -/

/-- R283 (a), 10_state.md R22: every index is below `C`. -/
def IndicesLegal (s : State) : Prop :=
  s.rx.head < s.cfg.capacity ∧ s.rx.tail < s.cfg.capacity ∧
    s.tx.head < s.cfg.capacity ∧ s.tx.tail < s.cfg.capacity

/-- R283 (b): armed exactly while `TX` is not empty. -/
def ArmedIffNonEmpty (s : State) : Prop := s.txie = true ↔ s.tx.head ≠ s.tx.tail

/-- R283 (c): in W3 and W4 `M.nt` is the next tail and `TX` is not full. -/
def CandidateSound (s : State) : Prop :=
  s.m.phase = .w3 ∨ s.m.phase = .w4 →
    s.m.nt = some (advance s.cfg s.tx.tail) ∧ advance s.cfg s.tx.tail ≠ s.tx.head

/-- R283 (d): a buffer holds at most `C - 1` bytes. -/
def CountsBounded (s : State) : Prop :=
  count .rxbuf s ≤ s.cfg.capacity - 1 ∧ count .txbuf s ≤ s.cfg.capacity - 1

/-- R283 (e): every occupied slot holds a value, a byte waiting and a byte in flight too. -/
def ValuesPresent (s : State) : Prop :=
  (∀ i ∈ occupied s.cfg.capacity s.rx, (Memory.lookup s.rx.buf i).isSome = true) ∧
  (∀ i ∈ occupied s.cfg.capacity s.tx, (Memory.lookup s.tx.buf i).isSome = true) ∧
  (s.line.rxAvail = true → s.line.rxData.isSome = true) ∧
  (s.line.txReady = false → s.line.txData.isSome = true)

/-- R283 (g): before INIT nothing has happened on either direction. -/
def QuietBeforeInit (s : State) : Prop :=
  s.inited = false →
    s.rx.head = s.rx.tail ∧ s.tx.head = s.tx.tail ∧ s.line.rxAvail = false ∧ s.line.txReady = true ∧
    s.ghost.lineOut = [] ∧ s.ghost.rxAccepted = [] ∧ s.ghost.rxDropped = [] ∧ s.ghost.rxHwLost = [] ∧
    s.ghost.wrLog = []

/-- The byte in transmission (10_state.md R43, 20_memory.md R79). -/
def inflight (s : State) : List Byte := if s.line.txReady then [] else s.line.txData.toList

/-- The phases of WRITE (10_state.md R30). -/
def writing (p : Phase) : Bool := p == .w1 || p == .w2 || p == .w3 || p == .w4

/-- The operand of the WRITE in progress (20_memory.md R79). -/
def pendingWrite (s : State) : List Byte := if writing s.m.phase then s.m.b.toList else []

/-- R283 (h), the first equation of 20_memory.md R79: bytes leave in the order WRITE took them. -/
def TransmitOrder (s : State) : Prop :=
  s.ghost.wrLog = s.ghost.lineOut ++ inflight s ++ content .txbuf s ++ pendingWrite s

/-- The bytes READ has returned so far: the responses of READ commands other than 0xFFFF, low byte
(20_memory.md R79). The command of each response is the model's ghost `cmdLog` (log 13). -/
def delivered (s : State) : List Byte :=
  (s.cmdLog.zip s.ghost.respLog).filterMap fun c =>
    if c.1 = encode .read ∧ c.2 ≠ respNone then some (c.2.setWidth 8) else none

/-- R283 (h), the second equation of 20_memory.md R79: bytes are delivered in the order they were stored. -/
def ReceiveOrder (s : State) : Prop :=
  delivered s ++ content .rxbuf s = s.ghost.rxAccepted

/-- The invariants R283 lists for every step boundary of a run with `FAULT = none`, (i) and (j) apart, which
are about two states and about the acceptance rule. -/
structure Invariants (s : State) : Prop where
  /-- The run has not gone wrong. -/
  noFault : s.fault = none
  /-- (a) -/
  indices : IndicesLegal s
  /-- (b) -/
  armed : ArmedIffNonEmpty s
  /-- (c) -/
  candidate : CandidateSound s
  /-- (d) -/
  counts : CountsBounded s
  /-- (e) -/
  present : ValuesPresent s
  /-- (f) -/
  rxieInited : s.rxie = s.inited
  /-- (g) -/
  quiet : QuietBeforeInit s
  /-- (h), first equation -/
  transmitOrder : TransmitOrder s
  /-- (h), second equation -/
  receiveOrder : ReceiveOrder s

/-- The operation code of the command a phase belongs to (10_state.md R30). -/
def phaseOpcode : Phase → Option (BitVec 4)
  | .idle => none
  | .n1 => some 1#4
  | .w1 | .w2 | .w3 | .w4 => some 2#4
  | .r1 | .r2 | .r3 => some 3#4
  | .a1 => some 4#4
  | .k1 => some 5#4
  | .s1 => some 6#4

/-- The logs fit the sequencer: one response a completed command, and in a phase the last command issued is
the phase's, with its operand in `M.b` (10_state.md R28, R29, R30, R44). -/
def LogsFit (s : State) : Prop :=
  s.m.pc = s.cmdLog.length ∧
  match phaseOpcode s.m.phase with
  | none => s.cmdLog.length = s.ghost.respLog.length
  | some op => s.cmdLog.length = s.ghost.respLog.length + 1 ∧
      ∃ i, isCommand i = true ∧ opcodeOf i = op ∧ s.cmdLog.getLast? = some (encode i) ∧
        s.m.b = some (dataOf i)

/-- Store before publish: in W4 the slot about to be published holds the byte (20_memory.md R76,
70_reset_and_hazards.md R286). -/
def StoredBeforePublish (s : State) : Prop :=
  s.m.phase = .w4 → Memory.lookup s.tx.buf s.tx.tail = s.m.b

/-- A READ past its empty test has a byte to return: `RX` is not empty, and in R3 `M.v` is the byte at the
head (44_read_api.md R184). -/
def ReadInProgress (s : State) : Prop :=
  (s.m.phase = .r2 ∨ s.m.phase = .r3 → s.rx.head ≠ s.rx.tail) ∧
  (s.m.phase = .r3 → Memory.lookup s.rx.buf s.rx.head = s.m.v)

/-- Both storages are in canonical form and list existing slots only (20_memory.md R60). -/
def StorageCanonical (s : State) : Prop :=
  Memory.wf s.rx.buf ∧ Memory.wf s.tx.buf ∧
    Memory.within s.cfg.capacity s.rx.buf ∧ Memory.within s.cfg.capacity s.tx.buf

/-- What the invariants of R283 need beside them to be kept by every step from every state: the facts about a
command in progress, and the marks. -/
structure Working (s : State) : Prop where
  /-- R283. -/
  inv : Invariants s
  /-- The logs fit the sequencer. -/
  logs : LogsFit s
  /-- Store before publish. -/
  stored : StoredBeforePublish s
  /-- A READ in progress. -/
  reading : ReadInProgress s
  /-- A refusal leaves the mainline in phase IDLE (60_exceptions.md R233, 30_encoding.md R96). -/
  refusedIdle : s.refused ≠ none → s.m.phase = .idle
  /-- Before INIT only INIT, GIE_SET and GIE_CLR are in progress (30_encoding.md R96). -/
  beforeInit : s.inited = false →
    s.m.phase = .idle ∨ s.m.phase = .n1 ∨ s.m.phase = .s1 ∨ s.m.phase = .k1

/-- A byte that waits in `LINE.rx_data` (10_state.md R43). -/
def waiting (s : State) : List Byte := if s.line.rxAvail then s.line.rxData.toList else []

/-- The receive side accounts for every byte consumed: R47's position in `line_in`, and the stored and
waiting bytes in their order of arrival (10_state.md R47; 20_memory.md R79 in the source's words). -/
structure InputAccounted (s : State) : Prop where
  /-- R47's formula. -/
  position : s.linePos = s.ghost.rxAccepted.length + s.ghost.rxDropped.length +
    s.ghost.rxHwLost.length + (if s.line.rxAvail then 1 else 0)
  /-- No more bytes are consumed than were sent. -/
  within : s.linePos ≤ s.lineIn.length
  /-- The bytes stored and waiting are bytes of the consumed input, in order. -/
  inOrder : (s.ghost.rxAccepted ++ waiting s).Sublist (s.lineIn.take s.linePos)

/-! ## Infinite runs and fairness (70_reset_and_hazards.md R282) -/

/-- A run as an infinite sequence: `r n` is the state at step boundary `n`, and the step taken there is `l n`, or
none for ever when the state is quiescent (70_reset_and_hazards.md R280). -/
def IsRun (r : Nat → State) (l : Nat → Instr) : Prop :=
  ∀ n, exec (l n) (r n) = .next (r (n + 1)) ∨ (quiescent (r n) = true ∧ r (n + 1) = r n)

/-- Weak fairness of one label: if it stays enabled from some boundary on, it is taken after it. -/
def WeaklyFair (i : Instr) (r : Nat → State) (l : Nat → Instr) : Prop :=
  ∀ n, (∀ k, n ≤ k → enabled i (r k) = true) → ∃ k, n ≤ k ∧ l k = i ∧ exec i (r k) = .next (r (k + 1))

/-- The fairness assumptions of R282: of both handlers, of LINE_TX and of the mainline; none of LINE_RX. -/
structure Fair (r : Nat → State) (l : Nat → Instr) : Prop where
  /-- (a) -/
  isrRx : WeaklyFair .isrRx r l
  /-- (a) -/
  isrTx : WeaklyFair .isrTx r l
  /-- (b) -/
  lineTx : WeaklyFair .lineTx r l
  /-- (c) -/
  mainline : WeaklyFair .mstep r l

end Sys2Proof.Machine
end

