-- ==== Sys2Proof/Certificates/Slice0/Obligations.lean ====
section
/-! DEFINITION. The statements about the model, for the provers. Each docstring names the rules of spec/ it
formalises; OBLIGATIONS.json holds its entry. -/

open Sys2Proof Sys2Proof.Machine

/-! ## Encoding (spec/30_encoding.md) -/

/-- R90, R91, R93: a word has the meaning `i` exactly when it is the word the map gives `i`. So decoding an encoded
operation gives it back with every operand, and no two words have one meaning. -/
def Obligations.DecodeIsTheInverseOfEncode : Prop :=
  ∀ (w : Word) (i : Instr), decode w = .ok i ↔ encode i = w

/-- R95: every 16-bit word is either exactly one row of the map or reserved; the rows are the table's masks and
patterns, the reserved words are R97's list. -/
def Obligations.EveryWordIsOneRowOrReserved : Prop :=
  ∀ w : Word,
    (∃ i, decode w = .ok i ∧ rowsSelected w = [mnemonicOf i] ∧ reservedWord w = false) ∨
    ((∃ e, decode w = .error e) ∧ rowsSelected w = [] ∧ reservedWord w = true)

/-- R93, 95_test_vectors.md V71 to V80: words written out from the map decode to what they stand for. -/
def Obligations.WrittenWordsDecode : Prop :=
  decode 0x1000#16 = .ok .init ∧ decode 0x2041#16 = .ok (.write 0x41#8) ∧
  decode 0x20FF#16 = .ok (.write 0xFF#8) ∧ decode 0x6000#16 = .ok .gieSet ∧
  decode 0x8000#16 = .ok .isrRx ∧ decode 0xA031#16 = .ok (.lineRx 0x31#8) ∧
  decode 0xC000#16 = .ok .mstep ∧ decode 0x2141#16 = .error .zeroField ∧
  decode 0xC001#16 = .error .strayData ∧ decode 0x7000#16 = .error (.reservedOp 0x7#4)

/-- R97: a reserved word or a schedule label on the command port is refused with `REF_RESERVED`; nothing else
changes, and the mainline stops: no later mainline step has a next state. -/
def Obligations.PortRefusesReservedWordsAndLabels : Prop :=
  ∀ (w : Word) (s : State), cmdReady s = true →
    (reservedWord w = true ∨ ∃ i, decode w = .ok i ∧ isCommand i = false) →
    present w s = .next { s with refused := some .reserved } ∧
    ∀ i t, isCommand i = true ∨ i = .mstep → exec i { s with refused := some .reserved } ≠ .next t

/-- R101: the written form of an operation reads back as that operation. -/
def Obligations.WrittenFormReadsBack : Prop :=
  ∀ i : Instr, parseProgram (render i) = some [i]

/-- R10, 10_state.md R22: `IW` is the least width that holds every index below `C`; `INTW` is 16 or 32 bits wide, and its
range and `PMAX` are the rule's. -/
def Obligations.ParametersFollowTheConfiguration : Prop :=
  ∀ cfg : Config,
    cfg.capacity ≤ 2 ^ indexWidth cfg ∧ 2 ^ (indexWidth cfg - 1) < cfg.capacity ∧ 1 ≤ indexWidth cfg ∧
    indexWidth cfg ≤ 8 ∧
    (cfg.intw = .w16 → intBits cfg = 16) ∧ (cfg.intw = .w32 → intBits cfg = 32) ∧
    intMin cfg = -(2 : Int) ^ (intBits cfg - 1) ∧ intMax cfg = (2 : Int) ^ (intBits cfg - 1) - 1 ∧
    ((10 : Int) ^ pmax cfg - 1 ≤ intMax cfg ∧ intMax cfg < (10 : Int) ^ (pmax cfg + 1) - 1)

/-! ## Which step is taken (spec/20_memory.md R72, spec/30_encoding.md R103) -/

/-- The model's schedule (notes/assumptions/7.md, 18.md): when the next schedule word decodes to `i`, `step` is
`exec i` with the schedule moved past the word; a reserved word is presented on the command port. -/
def Obligations.StepRunsTheScheduledWord : Prop :=
  ∀ (s : State) (w : Word) (rest : List Word), s.trace = w :: rest →
    (∀ i, decode w = .ok i → step s = exec i { s with trace := rest }) ∧
    (∀ e, decode w = .error e → step s = present w { s with trace := rest })

/-- R72, R242 with the model's free schedule (notes/assumptions/7.md): where the schedule's list is empty the step
is one of the enabled labels, and with every interrupt order open each enabled label is among those the free
choice picks from; a quiescent state (R280) without a fault has no step, which the outcome `.quiescent` says: that
outcome is the model's choice (notes/assumptions/6.md). -/
def Obligations.FreeScheduleTakesAnEnabledLabel : Prop :=
  ∀ s : State, s.trace = [] →
    (quiescent s = false → ∃ i, isCommand i = false ∧ enabled i s = true ∧
      step s = exec i { s with draws := s.draws + 1 }) ∧
    (s.cfg.irqOrder = .everyOrder → ∀ i, i ∈ candidates s ↔ isCommand i = false ∧ enabled i s = true) ∧
    (quiescent s = true → s.fault = none → step s = .refused .quiescent)

/-- R240, R96, R216, R218, R103: a step has a next state exactly when its enabling condition holds, in every state
whose indices are legal. For the six command words the condition is that the command port is ready, whatever the
program answers: that a schedule may present a command word without asking the program is the model's reading
(notes/assumptions/9.md). -/
def Obligations.StepsRunExactlyWhenEnabled : Prop :=
  ∀ (i : Instr) (s : State), IndicesLegal s →
    ((∃ t, exec i s = .next t) ↔ enabled i s = true)

/-- R240: the acceptance rule of the two handlers; the mainline's phase does not enter it. -/
def Obligations.AcceptanceRule : Prop :=
  ∀ s : State,
    (enabled .isrRx s = true ↔
      s.fault = none ∧ s.gie = true ∧ s.rxie = true ∧ s.line.rxAvail = true) ∧
    (enabled .isrTx s = true ↔
      s.fault = none ∧ s.gie = true ∧ s.txie = true ∧ s.line.txReady = true) ∧
    ∀ p, enabled .isrRx (setPhase p s) = enabled .isrRx s ∧ enabled .isrTx (setPhase p s) = enabled .isrTx s

/-! ## Reset (spec/10_state.md R46, spec/70_reset_and_hazards.md R270 to R272) -/

/-- R46: what reset leaves; an element the rule calls unspecified holds no value, and a read of it faults. -/
def Obligations.ResetLeavesTheStatedValues : Prop :=
  State.reset.rx = ⟨[], 0, 0⟩ ∧ State.reset.tx = ⟨[], 0, 0⟩ ∧
  State.reset.gie = false ∧ State.reset.rxie = false ∧ State.reset.txie = false ∧ State.reset.inited = false ∧
  State.reset.line = ⟨none, false, none, true⟩ ∧ State.reset.m = ⟨0, .idle, none, none, none, none⟩ ∧
  State.reset.fault = none ∧ State.reset.refused = none ∧
  State.reset.ghost = ⟨[], [], [], [], [], []⟩ ∧
  (∀ sp i, Memory.lookup (ringOf sp State.reset).buf i = none) ∧
  (∀ sp i, i < State.reset.cfg.capacity →
    memRead sp i State.reset = .error (.raised (.readUnwritten (.slot sp i))))

/-- R271: after reset the mainline is in phase IDLE, about to issue `P([])`, with `GIE = 0`, and the only enabled step
is command issue. That each of the six command words counts as one, whatever the program answers, is the model's
reading (notes/assumptions/9.md). -/
def Obligations.OnlyIssueIsEnabledAfterReset : Prop :=
  ∀ (cfg : Config) (p : Program) (inp : List Byte) (tr : List Word),
    let s := State.start cfg p inp tr
    s.m.phase = .idle ∧ s.m.pc = 0 ∧ s.gie = false ∧ nextChoice s = answer p [] ∧
      ∀ i, enabled i s = true ↔ isCommand i = true ∨ (i = .mstep ∧ answer p [] ≠ .halt)

/-! ## Command issue (spec/30_encoding.md R96) -/

/-- R96: the mainline's step in phase IDLE, its tests in the rule's order and the latch; with `halt` the mainline
has no step (the refusal's name is the model's, notes/assumptions/5.md; `cmdLog` is 13.md). R193, R197, R233: a
pseudo-operation whose operand check fails is refused with `REF_OPERAND`, and only the mark is written (that the
program answers it as a choice of its own is notes/assumptions/17.md). -/
def Obligations.CommandIssue : Prop :=
  ∀ s : State, s.m.phase = .idle → s.fault = none → s.refused = none →
    (∀ w, nextChoice s = .command w →
      let op := (fieldsOf w).op
      let z := (fieldsOf w).zero
      let d := (fieldsOf w).data
      exec .mstep s = .next
        (if z ≠ 0 ∨ op ∉ [1, 2, 3, 4, 5, 6] ∨ (op ≠ 2 ∧ d ≠ 0) then { s with refused := some .reserved }
         else if op ∈ [2, 3, 4] ∧ s.inited = false then { s with refused := some .beforeInit }
         else if op = 1 ∧ s.inited = true then { s with refused := some .reinit }
         else
          { s with
            m := { s.m with
              b := some d
              pc := s.m.pc + 1
              phase := if op = 1 then .n1 else if op = 2 then .w1 else if op = 3 then .r1
                else if op = 4 then .a1 else if op = 5 then .k1 else .s1 }
            ghost := { s.ghost with wrLog := if op = 2 then s.ghost.wrLog ++ [d] else s.ghost.wrLog }
            cmdLog := s.cmdLog ++ [w] })) ∧
    (nextChoice s = .halt → exec .mstep s = .refused (.notEnabled .mainline)) ∧
    (nextChoice s = .refuseOperand → exec .mstep s = .next { s with refused := some .operand })

/-- R92, R96, R160, R182, R186, R211, R213, R214: a command word on a ready command port, in its place in the run, is
latched and its first phase entered; nothing else changes. -/
def Obligations.CommandsAreLatched : Prop :=
  ∀ s : State, cmdReady s = true →
    (s.inited = false → exec .init s = .next { s with
      m := { s.m with b := some 0, pc := s.m.pc + 1, phase := .n1 }, cmdLog := s.cmdLog ++ [0x1000] }) ∧
    (s.inited = true → ∀ d, exec (.write d) s = .next { s with
      m := { s.m with b := some d, pc := s.m.pc + 1, phase := .w1 }
      ghost := { s.ghost with wrLog := s.ghost.wrLog ++ [d] }
      cmdLog := s.cmdLog ++ [encode (.write d)] }) ∧
    (s.inited = true → exec .read s = .next { s with
      m := { s.m with b := some 0, pc := s.m.pc + 1, phase := .r1 }, cmdLog := s.cmdLog ++ [0x3000] }) ∧
    (s.inited = true → exec .avail s = .next { s with
      m := { s.m with b := some 0, pc := s.m.pc + 1, phase := .a1 }, cmdLog := s.cmdLog ++ [0x4000] }) ∧
    (exec .gieClr s = .next { s with
      m := { s.m with b := some 0, pc := s.m.pc + 1, phase := .k1 }, cmdLog := s.cmdLog ++ [0x5000] }) ∧
    (exec .gieSet s = .next { s with
      m := { s.m with b := some 0, pc := s.m.pc + 1, phase := .s1 }, cmdLog := s.cmdLog ++ [0x6000] })

/-- R96, R233: WRITE, READ and AVAIL before INIT are refused with `REF_BEFORE_INIT`, a second INIT with `REF_REINIT`;
only the mark is written. -/
def Obligations.CommandsOutOfPlaceAreRefused : Prop :=
  ∀ s : State, cmdReady s = true →
    (s.inited = false → ∀ i, i = .read ∨ i = .avail ∨ (∃ d, i = .write d) →
      exec i s = .next { s with refused := some .beforeInit }) ∧
    (s.inited = true → exec .init s = .next { s with refused := some .reinit })

/-! ## INIT, GIE_SET, GIE_CLR (spec/46_init_and_line_interface.md) -/

/-- R187, R212, R213, R214: the single phases of AVAIL, INIT, GIE_SET and GIE_CLR, from every state without a mark: the
next state is the one the rule writes, and nothing else of the state changes. -/
def Obligations.SinglePhaseCommandsComplete : Prop :=
  ∀ s : State, unmarked s = true →
    (s.m.phase = .n1 → exec .mstep s = .next { s with
      rxie := true, inited := true
      m := { s.m with res := some 0x0000, phase := .idle }
      ghost := { s.ghost with respLog := s.ghost.respLog ++ [0x0000] } }) ∧
    (s.m.phase = .s1 → exec .mstep s = .next { s with
      gie := true
      m := { s.m with res := some 0x0000, phase := .idle }
      ghost := { s.ghost with respLog := s.ghost.respLog ++ [0x0000] } }) ∧
    (s.m.phase = .k1 → exec .mstep s = .next { s with
      gie := false
      m := { s.m with res := some 0x0000, phase := .idle }
      ghost := { s.ghost with respLog := s.ghost.respLog ++ [0x0000] } }) ∧
    (s.m.phase = .a1 → exec .mstep s = .next
      (let n := if s.rx.tail ≥ s.rx.head then s.rx.tail - s.rx.head
                else s.rx.tail + s.cfg.capacity - s.rx.head
       { s with
         m := { s.m with res := some (BitVec.ofNat 16 n), phase := .idle }
         ghost := { s.ghost with respLog := s.ghost.respLog ++ [BitVec.ofNat 16 n] } }))

/-- R213: GIE_SET, before or after INIT: two mainline steps, `GIE` 1, response 0x0000; a handler whose other
conditions hold is enabled immediately after. -/
def Obligations.GieSetCompletes : Prop :=
  ∀ s : State, cmdReady s = true → ∃ t,
    runTrace [.gieSet, .mstep] s = .next t ∧
    t = { s with
      gie := true
      m := { s.m with b := some 0, pc := s.m.pc + 1, res := some 0x0000, phase := .idle }
      ghost := { s.ghost with respLog := s.ghost.respLog ++ [0x0000] }
      cmdLog := s.cmdLog ++ [0x6000] } ∧
    (enabled .isrRx t = true ↔ s.rxie = true ∧ s.line.rxAvail = true) ∧
    (enabled .isrTx t = true ↔ s.txie = true ∧ s.line.txReady = true)

/-- R214: GIE_CLR, before or after INIT: two mainline steps, `GIE` 0, response 0x0000; no handler is taken
after it, and the pending conditions are kept. -/
def Obligations.GieClrCompletes : Prop :=
  ∀ s : State, cmdReady s = true → ∃ t,
    runTrace [.gieClr, .mstep] s = .next t ∧
    t = { s with
      gie := false
      m := { s.m with b := some 0, pc := s.m.pc + 1, res := some 0x0000, phase := .idle }
      ghost := { s.ghost with respLog := s.ghost.respLog ++ [0x0000] }
      cmdLog := s.cmdLog ++ [0x5000] } ∧
    enabled .isrRx t = false ∧ enabled .isrTx t = false ∧ irqRx t = irqRx s ∧ irqTx t = irqTx s

/-! ## WRITE (spec/43_write_api.md) -/

/-- R161, R162: phase W1. The fast path exactly when `TX` is empty and the hardware ready, and then `TXIE` is 0
where the invariant R283 (b) holds; in every other case the slow path. `GIE` is the same after as before. -/
def Obligations.WriteFastPathTest : Prop :=
  ∀ (s : State) (d : Byte), s.m.phase = .w1 → unmarked s = true → s.m.b = some d →
    (s.tx.head = s.tx.tail ∧ s.line.txReady = true →
      exec .mstep s = .next { s with
        line := { s.line with txData := some d, txReady := false }
        m := { s.m with res := some 0x0001, phase := .idle }
        ghost := { s.ghost with respLog := s.ghost.respLog ++ [0x0001] } } ∧
      (ArmedIffNonEmpty s → s.txie = false)) ∧
    (¬ (s.tx.head = s.tx.tail ∧ s.line.txReady = true) →
      exec .mstep s = .next { s with m := { s.m with phase := .w2 } })

/-- R163: phase W2. While `TX` is full the step is enabled, stays in W2 and, repeated, changes nothing more;
otherwise W3 is next. -/
def Obligations.WriteSpinTest : Prop :=
  ∀ s : State, s.m.phase = .w2 → unmarked s = true →
    ((s.tx.tail + 1) % s.cfg.capacity = s.tx.head →
      exec .mstep s = .next { s with m := { s.m with nt := some ((s.tx.tail + 1) % s.cfg.capacity) } } ∧
      ∀ t, exec .mstep s = .next t → exec .mstep t = .next t) ∧
    ((s.tx.tail + 1) % s.cfg.capacity ≠ s.tx.head →
      exec .mstep s = .next { s with
        m := { s.m with nt := some ((s.tx.tail + 1) % s.cfg.capacity), phase := .w3 } })

/-- R165: phase W3 stores the byte at the slot `TX.tail`, which is not yet advanced and lies outside the occupied
range. -/
def Obligations.WriteStores : Prop :=
  ∀ (s : State) (d : Byte), s.m.phase = .w3 → unmarked s = true → s.m.b = some d →
    s.tx.tail < s.cfg.capacity → s.tx.head < s.cfg.capacity →
    s.tx.tail ∉ occupied s.cfg.capacity s.tx ∧
    ∃ t, exec .mstep s = .next t ∧
      (∀ a, Memory.lookup t.tx.buf a = if a = s.tx.tail then some d else Memory.lookup s.tx.buf a) ∧
      t = { s with tx := { s.tx with buf := t.tx.buf }, m := { s.m with phase := .w4 } }

/-- R166: phase W4 advances `TX.tail` to `M.nt` and arms `TXIE` in one step, responds 0x0001 and leaves `GIE` as it
was; with `GIE` and the ready condition 1, ISR_TX is enabled immediately after. Where the invariant R283 (c) holds,
`M.nt` is still the next tail. -/
def Obligations.WriteCommits : Prop :=
  ∀ (s : State) (n : Nat), s.m.phase = .w4 → unmarked s = true → s.m.nt = some n → ∃ t,
    exec .mstep s = .next t ∧
    t = { s with
      tx := { s.tx with tail := n }, txie := true
      m := { s.m with res := some 0x0001, phase := .idle }
      ghost := { s.ghost with respLog := s.ghost.respLog ++ [0x0001] } } ∧
    (s.gie = true → s.line.txReady = true → enabled .isrTx t = true) ∧
    (CandidateSound s → n = (s.tx.tail + 1) % s.cfg.capacity)

/-- R169, first case: on the fast path WRITE completes in two mainline steps. -/
def Obligations.WriteCompletesFast : Prop :=
  ∀ (s : State) (d : Byte), cmdReady s = true → s.inited = true →
    s.tx.head = s.tx.tail → s.line.txReady = true →
    runTrace [.write d, .mstep] s = .next { s with
      line := { s.line with txData := some d, txReady := false }
      m := { s.m with b := some d, pc := s.m.pc + 1, res := some 0x0001, phase := .idle }
      ghost := { s.ghost with
        wrLog := s.ghost.wrLog ++ [d], respLog := s.ghost.respLog ++ [0x0001] }
      cmdLog := s.cmdLog ++ [encode (.write d)] }

/-- R169, second case: on the slow path with a free slot WRITE completes in five mainline steps, with the byte in
the slot `TX.tail` named before, the tail advanced, and the transmitter armed. -/
def Obligations.WriteCompletesBuffered : Prop :=
  ∀ (s : State) (d : Byte), cmdReady s = true → s.inited = true → s.tx.tail < s.cfg.capacity →
    ¬ (s.tx.head = s.tx.tail ∧ s.line.txReady = true) →
    (s.tx.tail + 1) % s.cfg.capacity ≠ s.tx.head → ∃ t,
    runTrace [.write d, .mstep, .mstep, .mstep, .mstep] s = .next t ∧
    (∀ a, Memory.lookup t.tx.buf a = if a = s.tx.tail then some d else Memory.lookup s.tx.buf a) ∧
    t = { s with
      tx := ⟨t.tx.buf, s.tx.head, (s.tx.tail + 1) % s.cfg.capacity⟩
      txie := true
      m := { s.m with b := some d, pc := s.m.pc + 1, nt := some ((s.tx.tail + 1) % s.cfg.capacity),
                      res := some 0x0001, phase := .idle }
      ghost := { s.ghost with
        wrLog := s.ghost.wrLog ++ [d], respLog := s.ghost.respLog ++ [0x0001] }
      cmdLog := s.cmdLog ++ [encode (.write d)] }

/-- R172: with `GIE = 0` and `TX` full in phase W2 the spin never ends, whatever steps the mainline, the handlers
and the line hardware take. -/
def Obligations.WriteHangsWithInterruptsOff : Prop :=
  ∀ (s : State), s.m.phase = .w2 → s.gie = false →
    (s.tx.tail + 1) % s.cfg.capacity = s.tx.head →
    ∀ (tr : List Instr) (t : State), runTrace tr s = .next t →
      t.m.phase = .w2 ∧ t.gie = false ∧ t.tx = s.tx ∧ t.ghost.respLog = s.ghost.respLog

/-- 42_tx_handler.md R155 (d), 43_write_api.md R163: from the spin on a full buffer, one ready event and one
transmit handler let the WRITE complete. -/
def Obligations.SpinIsReleasedByTheHandler : Prop :=
  ∀ s : State, Working s → s.m.phase = .w2 → s.refused = none → s.gie = true → s.line.txReady = false →
    (s.tx.tail + 1) % s.cfg.capacity = s.tx.head → ∃ t,
    runTrace [.lineTx, .isrTx, .mstep, .mstep, .mstep] s = .next t ∧
    t.m.phase = .idle ∧ t.m.res = some 0x0001 ∧ t.tx.head = (s.tx.head + 1) % s.cfg.capacity ∧
    t.tx.tail = (s.tx.tail + 1) % s.cfg.capacity ∧
    content .txbuf t = (content .txbuf s).tail ++ s.m.b.toList

/-- 70_reset_and_hazards.md R282: under the fairness assumptions and with `GIE = 1` throughout, every WRITE
completes. -/
def Obligations.FairRunsCompleteEveryWrite : Prop :=
  ∀ (r : Nat → State) (l : Nat → Instr), IsRun r l → Fair r l → Working (r 0) →
    (∀ n, (r n).gie = true) →
    ∀ n, writing (r n).m.phase = true → ∃ k, n ≤ k ∧ (r k).m.phase = .idle

/-! ## READ and AVAIL (spec/44_read_api.md) -/

/-- R183, R184: phases R1 and R2. On an empty buffer the response is `NONE` and nothing of `RX` changes; else R2 is
next, which latches the byte of the slot `RX.head`; where the invariants hold the slot has one, so the fault
`FLT_READ_UNWRITTEN` cannot occur, and ISR_RX taken in between leaves that slot alone. -/
def Obligations.ReadTestsAndLatches : Prop :=
  ∀ s : State, unmarked s = true →
    (s.m.phase = .r1 → s.rx.head = s.rx.tail → exec .mstep s = .next { s with
      m := { s.m with res := some 0xFFFF, phase := .idle }
      ghost := { s.ghost with respLog := s.ghost.respLog ++ [0xFFFF] } }) ∧
    (s.m.phase = .r1 → s.rx.head ≠ s.rx.tail →
      exec .mstep s = .next { s with m := { s.m with phase := .r2 } }) ∧
    (s.m.phase = .r2 → ∀ v, s.rx.head < s.cfg.capacity → Memory.lookup s.rx.buf s.rx.head = some v →
      exec .mstep s = .next { s with m := { s.m with v := some v, phase := .r3 } }) ∧
    (s.m.phase = .r2 → Working s → (∃ v, Memory.lookup s.rx.buf s.rx.head = some v) ∧
      ∀ t, exec .isrRx s = .next t →
        t.rx.head = s.rx.head ∧ Memory.lookup t.rx.buf s.rx.head = Memory.lookup s.rx.buf s.rx.head)

/-- R185: phase R3 advances `RX.head` modulo `C` and responds the byte, zero-extended. -/
def Obligations.ReadDeliversTheByte : Prop :=
  ∀ (s : State) (v : Byte), s.m.phase = .r3 → unmarked s = true → s.m.v = some v →
    exec .mstep s = .next { s with
      rx := { s.rx with head := (s.rx.head + 1) % s.cfg.capacity }
      m := { s.m with res := some (v.setWidth 16), phase := .idle }
      ghost := { s.ghost with respLog := s.ghost.respLog ++ [v.setWidth 16] } }

/-- R181: READ on empty takes two mainline steps and responds 0xFFFF; READ with data takes four and responds the
byte at the head. -/
def Obligations.ReadCompletes : Prop :=
  ∀ s : State, cmdReady s = true → s.inited = true →
    (s.rx.head = s.rx.tail → runTrace [.read, .mstep] s = .next { s with
      m := { s.m with b := some 0, pc := s.m.pc + 1, res := some 0xFFFF, phase := .idle }
      ghost := { s.ghost with respLog := s.ghost.respLog ++ [0xFFFF] }
      cmdLog := s.cmdLog ++ [0x3000] }) ∧
    (s.rx.head ≠ s.rx.tail → ∀ v, s.rx.head < s.cfg.capacity → Memory.lookup s.rx.buf s.rx.head = some v →
      runTrace [.read, .mstep, .mstep, .mstep] s = .next { s with
        rx := { s.rx with head := (s.rx.head + 1) % s.cfg.capacity }
        m := { s.m with b := some 0, pc := s.m.pc + 1, v := some v, res := some (v.setWidth 16), phase := .idle }
        ghost := { s.ghost with respLog := s.ghost.respLog ++ [v.setWidth 16] }
        cmdLog := s.cmdLog ++ [0x3000] })

/-- R186, R187, 40_ring_buffer.md R123: AVAIL takes two mainline steps and responds the count of `RX`, the
capacity added before subtracting where the tail has wrapped; it writes nothing else. -/
def Obligations.AvailCompletes : Prop :=
  ∀ s : State, cmdReady s = true → s.inited = true →
    runTrace [.avail, .mstep] s = .next
      (let n := if s.rx.tail ≥ s.rx.head then s.rx.tail - s.rx.head
                else s.rx.tail + s.cfg.capacity - s.rx.head
       { s with
         m := { s.m with b := some 0, pc := s.m.pc + 1, res := some (BitVec.ofNat 16 n), phase := .idle }
         ghost := { s.ghost with respLog := s.ghost.respLog ++ [BitVec.ofNat 16 n] }
         cmdLog := s.cmdLog ++ [0x4000] })

/-! ## The handlers (spec/41_rx_handler.md, spec/42_tx_handler.md) -/

/-- R141: ISR_RX reads the data register on both paths. With room the byte goes into the slot `RX.tail` and the tail
advances; a full buffer drops it. `GIE` is 1 before and after. -/
def Obligations.ReceiveHandler : Prop :=
  ∀ (s : State) (v : Byte), s.fault = none → s.gie = true → s.rxie = true → s.line.rxAvail = true →
    s.line.rxData = some v → s.rx.tail < s.cfg.capacity →
    ((s.rx.tail + 1) % s.cfg.capacity = s.rx.head → exec .isrRx s = .next { s with
      line := { s.line with rxAvail := false }
      ghost := { s.ghost with rxDropped := s.ghost.rxDropped ++ [v] } }) ∧
    ((s.rx.tail + 1) % s.cfg.capacity ≠ s.rx.head → ∃ t, exec .isrRx s = .next t ∧
      (∀ a, Memory.lookup t.rx.buf a = if a = s.rx.tail then some v else Memory.lookup s.rx.buf a) ∧
      t = { s with
        rx := ⟨t.rx.buf, s.rx.head, (s.rx.tail + 1) % s.cfg.capacity⟩
        line := { s.line with rxAvail := false }
        ghost := { s.ghost with rxAccepted := s.ghost.rxAccepted ++ [v] } })

/-- R151: ISR_TX pops the byte at the head, hands it to the hardware, and disarms when the pop has emptied `TX`.
`GIE` is 1 before and after. -/
def Obligations.TransmitHandler : Prop :=
  ∀ (s : State) (v : Byte), s.fault = none → s.gie = true → s.txie = true → s.line.txReady = true →
    s.tx.head ≠ s.tx.tail → s.tx.head < s.cfg.capacity → Memory.lookup s.tx.buf s.tx.head = some v →
    exec .isrTx s = .next { s with
      tx := { s.tx with head := (s.tx.head + 1) % s.cfg.capacity }
      line := { s.line with txData := some v, txReady := false }
      txie := if (s.tx.head + 1) % s.cfg.capacity = s.tx.tail then false else true }

/-- R153: an empty pop sets `FLT_TX_EMPTY_POP` with `TX.head`; nothing else is written, and no agent steps again. -/
def Obligations.EmptyPopFaults : Prop :=
  ∀ s : State, s.fault = none → s.gie = true → s.txie = true → s.line.txReady = true →
    s.tx.head = s.tx.tail →
    exec .isrTx s = .next { s with fault := some (.txEmptyPop s.tx.head) } ∧
    ∀ i t, exec i { s with fault := some (.txEmptyPop s.tx.head) } ≠ .next t

/-- R242: with both handlers enabled, in a state the invariants hold in, both orders can be taken and lead to the
same state. -/
def Obligations.HandlersCommute : Prop :=
  ∀ s : State, Working s → enabled .isrRx s = true → enabled .isrTx s = true →
    ∃ t, runTrace [.isrRx, .isrTx] s = .next t ∧ runTrace [.isrTx, .isrRx] s = .next t

/-! ## The line hardware (spec/46_init_and_line_interface.md) -/

/-- R216, R217: LINE_RX of the next byte of the input. With no byte waiting it goes into `LINE.rx_data`, and
`LINE.rx_avail` is set, which makes `irq_rx` true if `RXIE = 1`; while a byte waits, the arriving byte is lost and the
older one kept. The input's position moves on either way (R47). Before INIT, and for any other byte, the transition is
not enabled. -/
def Obligations.LineReceivesOrOverruns : Prop :=
  ∀ (s : State) (d : Byte), s.fault = none →
    (s.inited = true → s.lineIn[s.linePos]? = some d → s.line.rxAvail = false → ∃ t, exec (.lineRx d) s = .next t ∧
      t = { s with line := { s.line with rxData := some d, rxAvail := true }, linePos := s.linePos + 1 } ∧
      (s.rxie = true → irqRx t = true)) ∧
    (s.inited = true → s.lineIn[s.linePos]? = some d → s.line.rxAvail = true → exec (.lineRx d) s = .next { s with
      ghost := { s.ghost with rxHwLost := s.ghost.rxHwLost ++ [d] }, linePos := s.linePos + 1 }) ∧
    (s.inited = false ∨ s.lineIn[s.linePos]? ≠ some d → ∀ t, exec (.lineRx d) s ≠ .next t) ∧
    encode (.lineRx d) = wordOf ⟨0xA, 0, d⟩

/-- R218: LINE_TX: the byte in flight has left, the hardware is ready, which makes `irq_tx` true if `TXIE = 1`; with the
hardware ready the transition is not enabled. -/
def Obligations.LineTransmits : Prop :=
  ∀ s : State, s.fault = none →
    (∀ v, s.line.txReady = false → s.line.txData = some v → ∃ t, exec .lineTx s = .next t ∧
      t = { s with
        line := { s.line with txReady := true }
        ghost := { s.ghost with lineOut := s.ghost.lineOut ++ [v] } } ∧
      (s.txie = true → irqTx t = true)) ∧
    (s.line.txReady = true → ∀ t, exec .lineTx s ≠ .next t) ∧
    encode .lineTx = 0xB000

/-! ## Frames: what a step leaves unchanged -/

/-- The frame of the six command words (R96: "Issue touches no shared state"): every buffer, slot, flag, line
register and `FAULT`, the latches but `M.b`, and every ghost but `wr_log` are unchanged, and `wr_log` too unless the
command is WRITE; a refused command changes only the mark. -/
def Obligations.CommandFrame : Prop :=
  ∀ (i : Instr) (s t : State), isCommand i = true → exec i s = .next t →
    t.rx = s.rx ∧ t.tx = s.tx ∧ t.gie = s.gie ∧ t.rxie = s.rxie ∧ t.txie = s.txie ∧ t.inited = s.inited ∧
    t.line = s.line ∧ t.fault = s.fault ∧ t.m.nt = s.m.nt ∧ t.m.v = s.m.v ∧ t.m.res = s.m.res ∧
    t.ghost = { s.ghost with wrLog := t.ghost.wrLog } ∧
    ((∀ d, i ≠ .write d) → t.ghost.wrLog = s.ghost.wrLog) ∧
    t = { s with m := t.m, refused := t.refused, ghost := t.ghost, cmdLog := t.cmdLog } ∧
    (t.refused ≠ none → t = { s with refused := t.refused }) ∧
    (∀ sp a, Memory.lookup (ringOf sp t).buf a = Memory.lookup (ringOf sp s).buf a)

/-- The frame of MSTEP: a mainline step never writes `RX.tail`, a slot of `RXBUF`, `TX.head`, the receive half of the line
interface or a receive ghost; it stores one byte, in phase W3, at the slot `TX.tail`; and it writes each index, flag, latch
and line register only in the phase the rules say. R28, R100: `M.res` and `resp_log` are as before in every phase that
completes no command, and change only together, on the way back to IDLE. -/
def Obligations.MainlineFrame : Prop :=
  ∀ s t : State, exec .mstep s = .next t →
    t.rx.tail = s.rx.tail ∧ t.tx.head = s.tx.head ∧
    t.line.rxData = s.line.rxData ∧ t.line.rxAvail = s.line.rxAvail ∧
    (∀ a, Memory.lookup t.rx.buf a = Memory.lookup s.rx.buf a) ∧
    (∀ a, a ≠ s.tx.tail ∨ s.m.phase ≠ .w3 → Memory.lookup t.tx.buf a = Memory.lookup s.tx.buf a) ∧
    (s.m.phase ≠ .r3 → t.rx.head = s.rx.head) ∧ (s.m.phase ≠ .w4 → t.tx.tail = s.tx.tail ∧ t.txie = s.txie) ∧
    (s.m.phase ≠ .n1 → t.rxie = s.rxie ∧ t.inited = s.inited) ∧
    (s.m.phase ≠ .s1 → s.m.phase ≠ .k1 → t.gie = s.gie) ∧
    (s.m.phase ≠ .w1 → t.line = s.line) ∧
    (s.m.phase ≠ .idle → t.m.pc = s.m.pc ∧ t.m.b = s.m.b ∧ t.ghost.wrLog = s.ghost.wrLog ∧ t.cmdLog = s.cmdLog ∧
      t.refused = s.refused) ∧
    (s.m.phase ≠ .w2 → t.m.nt = s.m.nt) ∧ (s.m.phase ≠ .r2 → t.m.v = s.m.v) ∧
    (s.m.phase ∈ [Phase.idle, .w2, .w3, .r2] ∨
        (s.m.phase = .w1 ∧ ¬ (s.tx.head = s.tx.tail ∧ s.line.txReady = true)) ∨
        (s.m.phase = .r1 ∧ s.rx.head ≠ s.rx.tail) →
      t.m.res = s.m.res ∧ t.ghost.respLog = s.ghost.respLog) ∧
    ((t.m.res = s.m.res ∧ t.ghost.respLog = s.ghost.respLog) ∨
      ∃ r, t.m.res = some r ∧ t.ghost.respLog = s.ghost.respLog ++ [r] ∧ t.m.phase = .idle) ∧
    t.ghost = { s.ghost with respLog := t.ghost.respLog, wrLog := t.ghost.wrLog } ∧
    t = { s with rx := t.rx, tx := t.tx, gie := t.gie, rxie := t.rxie, txie := t.txie, inited := t.inited,
                 line := t.line, m := t.m, fault := t.fault, refused := t.refused, ghost := t.ghost,
                 cmdLog := t.cmdLog }

/-- The frame of ISR_RX (R141, R244): the mainline's latches, sequencer and command index, the transmit side, every flag
but `LINE.rx_avail`, `RX.head`, and every slot but `RX.tail`'s are unchanged. -/
def Obligations.ReceiveHandlerFrame : Prop :=
  ∀ s t : State, exec .isrRx s = .next t →
    t.rx.head = s.rx.head ∧
    (∀ a, a ≠ s.rx.tail → Memory.lookup t.rx.buf a = Memory.lookup s.rx.buf a) ∧
    (∀ a, Memory.lookup t.tx.buf a = Memory.lookup s.tx.buf a) ∧
    t.line = { s.line with rxAvail := t.line.rxAvail } ∧
    t.ghost = { s.ghost with rxAccepted := t.ghost.rxAccepted, rxDropped := t.ghost.rxDropped } ∧
    t = { s with rx := t.rx, line := t.line, fault := t.fault, ghost := t.ghost }

/-- The frame of ISR_TX (R151, R244): the mainline's latches, sequencer and command index, the receive side, every flag
but `TXIE` and `LINE.tx_ready`, `TX.tail`, every slot and every ghost are unchanged. -/
def Obligations.TransmitHandlerFrame : Prop :=
  ∀ s t : State, exec .isrTx s = .next t →
    t.tx.tail = s.tx.tail ∧
    (∀ sp a, Memory.lookup (ringOf sp t).buf a = Memory.lookup (ringOf sp s).buf a) ∧
    t.line = { s.line with txData := t.line.txData, txReady := t.line.txReady } ∧
    t = { s with tx := t.tx, line := t.line, txie := t.txie, fault := t.fault }

/-- The frame of LINE_RX and LINE_TX (R73 (d), R216, R217, R218): only their half of the line registers, their ghost,
the position in the input and (LINE_TX of an absent byte) the `FAULT` mark can change; no slot does. -/
def Obligations.LineFrame : Prop :=
  (∀ (d : Byte) (s t : State), exec (.lineRx d) s = .next t →
    t.line = { s.line with rxData := t.line.rxData, rxAvail := t.line.rxAvail } ∧
    t.ghost = { s.ghost with rxHwLost := t.ghost.rxHwLost } ∧
    (∀ sp a, Memory.lookup (ringOf sp t).buf a = Memory.lookup (ringOf sp s).buf a) ∧
    t = { s with line := t.line, ghost := t.ghost, linePos := t.linePos }) ∧
  (∀ s t : State, exec .lineTx s = .next t →
    t.line = { s.line with txReady := t.line.txReady } ∧
    t.ghost = { s.ghost with lineOut := t.ghost.lineOut } ∧
    (∀ sp a, Memory.lookup (ringOf sp t).buf a = Memory.lookup (ringOf sp s).buf a) ∧
    t = { s with line := t.line, ghost := t.ghost, fault := t.fault })

/-! ## Rules about the whole machine -/

/-- R24: each index is changed only by its owner's step, and `TXIE` is set only by WRITE's commit and cleared only by
ISR_TX. -/
def Obligations.OnlyOwnersMoveIndices : Prop :=
  ∀ (i : Instr) (s t : State), exec i s = .next t →
    (t.rx.tail ≠ s.rx.tail → i = .isrRx) ∧ (t.rx.head ≠ s.rx.head → i = .mstep ∧ s.m.phase = .r3) ∧
    (t.tx.tail ≠ s.tx.tail → i = .mstep ∧ s.m.phase = .w4) ∧ (t.tx.head ≠ s.tx.head → i = .isrTx) ∧
    (s.txie = false → t.txie = true → i = .mstep ∧ s.m.phase = .w4) ∧
    (s.txie = true → t.txie = false → i = .isrTx)

/-- R283 (i), R32: `GIE` differs between two step boundaries only across phase S1 or phase K1. R33, R35: `RXIE` and
`INITED` are never cleared. R29: the command index moves by one at most, and only at issue. -/
def Obligations.EnablesChangeOnlyByTheirCommands : Prop :=
  ∀ (i : Instr) (s t : State), exec i s = .next t →
    (t.gie ≠ s.gie → i = .mstep ∧ (s.m.phase = .s1 ∨ s.m.phase = .k1)) ∧
    (s.rxie = true → t.rxie = true) ∧ (s.inited = true → t.inited = true) ∧
    (t.m.pc = s.m.pc ∨ (t.m.pc = s.m.pc + 1 ∧ s.m.phase = .idle ∧ (isCommand i = true ∨ i = .mstep)))

/-- R232, R39: once `FAULT` is set no agent takes a further step; the outcome that says so is the model's
(notes/assumptions/3.md). -/
def Obligations.FaultStopsEveryAgent : Prop :=
  ∀ (s : State) (k : FaultMark), s.fault = some k →
    (∀ i, exec i s = .fault (.stopped k)) ∧ step s = .fault (.stopped k)

/-- R232: a step that raises a fault leaves the state before it, plus the mark. -/
def Obligations.FaultDiscardsEveryWrite : Prop :=
  ∀ (i : Instr) (s t : State), exec i s = .next t → t.fault ≠ none → t = { s with fault := t.fault }

/-- R233, R39: once `REFUSED` is set the mainline takes no further step, the mark stays, and handlers and LINE are
enabled exactly as they would be without it. -/
def Obligations.RefusalStopsOnlyTheMainline : Prop :=
  ∀ (s : State) (r : RefusalMark), s.refused = some r →
    (∀ i t, exec i s = .next t → i ≠ .mstep ∧ isCommand i = false ∧ t.refused = some r) ∧
    (∀ i, i ≠ .mstep → isCommand i = false → enabled i s = enabled i { s with refused := none })

/-- 40_ring_buffer.md R121, R122, R125: a push onto a buffer that is not full appends to the content and adds one to
the count, on a full one it fails and changes nothing; a pop removes and returns the content's first byte and takes
one from the count, on an empty buffer it fails and changes nothing. -/
def Obligations.PushAndPopActOnTheContent : Prop :=
  ∀ (sp : Space) (s : State), (ringOf sp s).head < s.cfg.capacity → (ringOf sp s).tail < s.cfg.capacity →
    (∀ i ∈ occupied s.cfg.capacity (ringOf sp s), (Memory.lookup (ringOf sp s).buf i).isSome = true) →
    (count sp s = s.cfg.capacity - 1 → ∀ v, tryPush sp v s = .ok none) ∧
    (count sp s ≠ s.cfg.capacity - 1 → ∀ v, ∃ t, tryPush sp v s = .ok (some t) ∧
      content sp t = content sp s ++ [v] ∧ count sp t = count sp s + 1) ∧
    (count sp s = 0 → tryPop sp s = .ok none) ∧
    (count sp s ≠ 0 → ∃ v t, tryPop sp s = .ok (some (v, t)) ∧
      content sp s = v :: content sp t ∧ count sp t + 1 = count sp s) ∧
    count sp s = (content sp s).length

/-- 70_reset_and_hazards.md R284 (P1): on a fresh buffer, any sequence of at most `C - 1` pushes followed by as many
pops returns the bytes in the order pushed, and the buffer is empty afterward. -/
def Obligations.FreshBufferIsFirstInFirstOut : Prop :=
  ∀ (sp : Space) (s : State) (bs : List Byte), ringOf sp s = ⟨[], 0, 0⟩ → bs.length ≤ s.cfg.capacity - 1 →
    ∃ t u : State,
      pushAll sp bs s = some t ∧ content sp t = bs ∧
      popAll sp bs.length t = some (bs, u) ∧ ringEmpty sp u = true

/-! ## Invariants (spec/70_reset_and_hazards.md R283, spec/20_memory.md R79) -/

/-- R283 at reset: the invariants hold where a run begins, whatever its arguments. -/
def Obligations.RunsBeginWorking : Prop :=
  ∀ (cfg : Config) (p : Program) (inp : List Byte) (tr : List Word),
    Working (State.start cfg p inp tr) ∧ InputAccounted (State.start cfg p inp tr) ∧
      StorageCanonical (State.start cfg p inp tr)

/-- R283, R79: every step keeps the invariants, the two ordering equations among them; so no fault is ever
raised from a state they hold in. -/
def Obligations.EveryStepKeepsTheInvariants : Prop :=
  ∀ s t : State, Working s → step s = .next t → Working t

/-- R47, R79: every step keeps the account of the received bytes: the stored and waiting bytes are bytes of the
input, in order of arrival, and every byte consumed is stored, dropped, lost or waiting. -/
def Obligations.EveryStepKeepsTheInputAccount : Prop :=
  ∀ s t : State, InputAccounted s → step s = .next t → InputAccounted t

/-- Every step keeps both storages in canonical form with existing slots only, in every state, reached or not. -/
def Obligations.EveryStepKeepsStorageCanonical : Prop :=
  ∀ s t : State, StorageCanonical s → step s = .next t → StorageCanonical t

/-- R232, R153, R66, R69: from the start of any run, under any schedule, no step raises a fault, and the bytes sent
and delivered are in order (R79). -/
def Obligations.NoFaultIsReachable : Prop :=
  ∀ (cfg : Config) (p : Program) (inp : List Byte) (tr : List Word) (n : Nat) (t : State),
    Host.Core.run core n (State.start cfg p inp tr) = .next t →
    t.fault = none ∧ TransmitOrder t ∧ ReceiveOrder t ∧ ∀ f, step t ≠ .fault f

/-- R280, R79: in a final state every byte WRITE took has left on the wire, in order. -/
def Obligations.FinalStatesHaveSentEverything : Prop :=
  ∀ s : State, Working s → final s = true → s.ghost.lineOut = s.ghost.wrLog

/-- 44_read_api.md R188 (a): a count is a lower bound. Every step but a READ's delivery keeps the received bytes
that are waiting to be read, as a prefix of those waiting after it. -/
def Obligations.BufferedBytesStayUntilRead : Prop :=
  ∀ (i : Instr) (s t : State), Working s → exec i s = .next t → ¬ (i = .mstep ∧ s.m.phase = .r3) →
    content .rxbuf s <+: content .rxbuf t

/-! ## The formatted-output pseudo-operations (spec/45_formatted_output.md) -/

/-- R194: the decimal text: a `-` exactly for a negative value, then the digits 0x30 to 0x39, most significant
first, with the magnitude's value and no leading zero but the single digit of 0. -/
def Obligations.DecimalTextDenotesTheValue : Prop :=
  ∀ v : Int, ∃ ds : List Byte,
    dec v = (if v < 0 then [0x2D] else []) ++ ds ∧
    (∀ d ∈ ds, 0x30 ≤ d.toNat ∧ d.toNat ≤ 0x39) ∧
    ds.foldl (fun n d => n * 10 + (d.toNat - 0x30)) 0 = v.natAbs ∧
    ds ≠ [] ∧ (ds.head? = some 0x30 → v = 0 ∧ ds = [0x30])

/-- R193, R195, R196: an `INTW`-bit integer is written as its decimal text, which with a terminator fits the scratch
buffer of 7 or 12 bytes, the minimum value too; any other integer is refused and nothing is written. -/
def Obligations.IntegerTextFitsTheScratchBuffer : Prop :=
  ∀ (cfg : Config) (v : Int),
    (cfg.intw = .w16 → scratchBytes cfg = 7) ∧ (cfg.intw = .w32 → scratchBytes cfg = 12) ∧
    (intMin cfg ≤ v ∧ v ≤ intMax cfg →
      intBytes cfg v = .ok (dec v) ∧ (dec v).length + 1 ≤ scratchBytes cfg) ∧
    (¬ (intMin cfg ≤ v ∧ v ≤ intMax cfg) → intBytes cfg v = .error .operand)

/-- R197, R198, R200, R201: the text of a finite operand in range: the sign exactly for a negative value, the
integer part of the magnitude, and for a positive precision a point and exactly that many digits, whose value is
the magnitude's fraction scaled and truncated; every other operand is refused. -/
def Obligations.FloatTextIsTruncatedAndPadded : Prop :=
  (∀ (cfg : Config) (q : Rat) (p : Nat), p ≤ pmax cfg → (⌊|q|⌋ : Int) ≤ intMax cfg → ∃ fs : List Byte,
    floatBytes cfg (.finite q) p = .ok
      ((if q < 0 then [0x2D] else []) ++ dec ⌊|q|⌋ ++ (if p = 0 then [] else 0x2E :: fs)) ∧
    fs.length = p ∧ (∀ d ∈ fs, 0x30 ≤ d.toNat ∧ d.toNat ≤ 0x39) ∧
    ((fs.foldl (fun n d => n * 10 + (d.toNat - 0x30)) 0 : Nat) : Int) = ⌊(|q| - ⌊|q|⌋) * 10 ^ p⌋) ∧
  (∀ (cfg : Config) (x : FloatOperand) (p : Nat),
    (∀ q, x = .finite q → p > pmax cfg ∨ (⌊|q|⌋ : Int) > intMax cfg) →
    floatBytes cfg x p = .error .operand)

/-- R190, R191, R102, R203: a pseudo-operation anywhere in a list of statements. After the responses of the statements
before it (one for a command, one for each byte of a pseudo-operation), it issues one WRITE of each of its bytes, in
order and with nothing in between; its result is their number; then the statements after it follow as they do without
it, and those before it are not touched. An absent or empty text is no command at all. A refused one stops the mainline
with `REF_OPERAND` (R193, R197, R233) and writes nothing. -/
def Obligations.PseudoOperationsExpandToWrites : Prop :=
  ∀ (cfg : Config) (before after : List SourceOp) (op : PseudoOp),
    let p := compileProgram cfg (before ++ .pseudo op :: after)
    let n := (before.map fun
      | .command _ => 1
      | .pseudo o => match countWritten cfg o with | .ok k => k | .error _ => 1).sum
    (∀ bs, pseudoBytes cfg op = .ok bs →
      countWritten cfg op = .ok bs.length ∧
      (∀ (h : List Word) (k : Nat) (b : Byte), bs[k]? = some b → h.length = n + k →
        answer p h = .command (encode (.write b))) ∧
      (∀ h h' : List Word, n ≤ h'.length → h.length = h'.length + bs.length →
        answer p h = answer (compileProgram cfg (before ++ after)) h')) ∧
    (∀ h : List Word, h.length < n → answer p h = answer (compileProgram cfg before) h) ∧
    (∀ (w : Word) (h : List Word), h.length = n →
      answer (compileProgram cfg (before ++ .command w :: after)) h = .command w) ∧
    (∀ h : List Word, answer (compileProgram cfg []) h = .halt) ∧
    (pseudoBytes cfg (.writeString none) = .ok [] ∧ pseudoBytes cfg (.writeString (some [])) = .ok []) ∧
    (∀ r, pseudoBytes cfg op = .error r → ∀ s : State, cmdReady s = true → s.ghost.respLog.length = n →
      s.program = p → exec .mstep s = .next { s with refused := some .operand })
end

