-- ==== Sys2Proof/Laws/Decode.lean ====
section
/-! SUPPORT. The fields of a step word and the word of its fields are inverse to each other (spec/30_encoding.md R90,
R91), so that proofs about the encoding never go down to bits again. -/
namespace Sys2Proof

/-- Each bit of a word built from its fields. -/
theorem getLsbD_wordOf (f : Fields) (i : Nat) : (wordOf f).getLsbD i =
    if i < 8 then f.data.getLsbD i else if i < 12 then f.zero.getLsbD (i - 8) else f.op.getLsbD (i - 12) := by
  have h1 : (wordOf f).getLsbD i = ((f.op ++ f.zero) ++ f.data).getLsbD i := rfl
  rw [h1, BitVec.getLsbD_append]
  split
  · rfl
  · rw [BitVec.getLsbD_append]
    by_cases h : i < 12
    · rw [if_pos h, if_pos (by omega)]
    · rw [if_neg h, if_neg (by omega), Nat.sub_sub]

/-- Every bit of a word is in one of its fields. -/
theorem wordOf_fieldsOf (w : Word) : wordOf (fieldsOf w) = w := by
  apply BitVec.eq_of_getLsbD_eq
  intro i hi
  rw [getLsbD_wordOf]
  simp only [fieldsOf, BitVec.getLsbD_extractLsb']
  split
  · simp [*]
  · split
    · rw [show 8 + (i - 8) = i by omega]; simp; omega
    · rw [show 12 + (i - 12) = i by omega]; simp; omega

/-- The fields of a word built from fields are those fields. -/
theorem fieldsOf_wordOf (f : Fields) : fieldsOf (wordOf f) = f := by
  obtain ⟨o, z, d⟩ := f
  simp only [fieldsOf, Fields.mk.injEq]
  refine ⟨?_, ?_, ?_⟩ <;> apply BitVec.eq_of_getLsbD_eq <;> intro i hi <;>
    simp only [BitVec.getLsbD_extractLsb', getLsbD_wordOf]
  · simp [hi, show ¬ (12 + i < 8) by omega]
  · simp [hi, show 8 + i < 12 by omega]
  · simp [hi]

/-- The fields of an operation's word. -/
theorem fieldsOf_encode (i : Instr) : fieldsOf (encode i) = ⟨opcodeOf i, 0#4, dataOf i⟩ := fieldsOf_wordOf _

end Sys2Proof
end

