-- ==== Sys2Proof/Laws/Memory.lean ====
section
/-! SUPPORT. The laws of storage (spec/20_memory.md R66, R67): a read after a write of the same slot gives the byte
written, a write leaves every other slot alone, and a write keeps the canonical form and the listed slots in range. -/
namespace Sys2Proof.Machine

theorem Memory.lookup_store_same (m : Memory) (i : Nat) (v : Byte) :
    Memory.lookup (Memory.store m i v) i = some v := by
  induction m with
  | nil => simp [Memory.store, Memory.lookup]
  | cons c rest ih =>
    simp only [Memory.store]
    split
    · simp [Memory.lookup]
    · split
      · simp [Memory.lookup]
      · rename_i h1 h2
        have : ¬ c.1 = i := fun h => h2 h.symm
        simp [Memory.lookup, this, ih]

theorem Memory.lookup_store_other (m : Memory) {i j : Nat} (v : Byte) (h : j ≠ i) :
    Memory.lookup (Memory.store m i v) j = Memory.lookup m j := by
  induction m with
  | nil => simp [Memory.store, Memory.lookup, Ne.symm h]
  | cons c rest ih =>
    simp only [Memory.store]
    split
    · simp [Memory.lookup, Ne.symm h]
    · split
      · rename_i hc
        have : ¬ c.1 = j := fun e => h (e.symm.trans hc.symm)
        simp [Memory.lookup, Ne.symm h, this]
      · simp [Memory.lookup, ih]

/-- One lemma for both cases of a read after a write. -/
theorem Memory.lookup_store (m : Memory) (i j : Nat) (v : Byte) :
    Memory.lookup (Memory.store m i v) j = if j = i then some v else Memory.lookup m j := by
  split
  · rename_i h
    exact h ▸ Memory.lookup_store_same m i v
  · rename_i h
    exact Memory.lookup_store_other m v h

/-- Every entry after a write is the one written or an entry from before. -/
theorem Memory.mem_store {m : Memory} {i : Nat} {v : Byte} {c : Host.Cell}
    (h : c ∈ Memory.store m i v) : c = (i, v) ∨ c ∈ m := by
  induction m with
  | nil => simpa [Memory.store] using h
  | cons d rest ih =>
    simp only [Memory.store] at h
    split at h
    · simpa using h
    · split at h
      · rcases List.mem_cons.mp h with h | h
        · exact .inl h
        · exact .inr (List.mem_cons_of_mem _ h)
      · rcases List.mem_cons.mp h with h | h
        · exact .inr (h ▸ List.mem_cons_self)
        · exact (ih h).imp id (List.mem_cons_of_mem _)

theorem Memory.store_wf {m : Memory} (h : Memory.wf m) (i : Nat) (v : Byte) :
    Memory.wf (Memory.store m i v) := by
  induction m with
  | nil => simp [Memory.store, Memory.wf]
  | cons d rest ih =>
    obtain ⟨hd, hr⟩ := List.pairwise_cons.mp h
    simp only [Memory.store]
    split
    · rename_i hi
      refine List.pairwise_cons.mpr ⟨fun c hc => ?_, h⟩
      rcases List.mem_cons.mp hc with rfl | hc
      · exact hi
      · exact Nat.lt_trans hi (hd c hc)
    · split
      · rename_i _ hi
        exact List.pairwise_cons.mpr ⟨fun c hc => by rw [hi]; exact hd c hc, hr⟩
      · rename_i h1 h2
        refine List.pairwise_cons.mpr ⟨fun c hc => ?_, ih hr⟩
        rcases Memory.mem_store hc with rfl | hc
        · exact Nat.lt_of_le_of_ne (Nat.le_of_not_lt h1) (Ne.symm h2)
        · exact hd c hc

theorem Memory.store_within {c : Nat} {m : Memory} (h : Memory.within c m) {i : Nat} (hi : i < c)
    (v : Byte) : Memory.within c (Memory.store m i v) := by
  intro cell hc
  rcases Memory.mem_store hc with rfl | hc
  · exact hi
  · exact h cell hc

/-- The reset storages are canonical and list nothing. -/
theorem reset_storage_wf : Memory.wf State.reset.rx.buf ∧ Memory.wf State.reset.tx.buf := by decide

end Sys2Proof.Machine
end

