-- ==== Sys2Proof/Laws/State.lean ====
section
/-! SUPPORT. What each named update of the state leaves in each field: one lemma per field and update, by rfl, so that
no proof unfolds a record update. -/
namespace Sys2Proof.Machine

variable (s : State)

/-! ### `setRing .rxbuf` -/

@[simp] theorem setRing_rxbuf_rx (r : Ring) : (setRing .rxbuf r s).rx = r := rfl
@[simp] theorem setRing_rxbuf_tx (r : Ring) : (setRing .rxbuf r s).tx = s.tx := rfl
@[simp] theorem setRing_rxbuf_gie (r : Ring) : (setRing .rxbuf r s).gie = s.gie := rfl
@[simp] theorem setRing_rxbuf_rxie (r : Ring) : (setRing .rxbuf r s).rxie = s.rxie := rfl
@[simp] theorem setRing_rxbuf_txie (r : Ring) : (setRing .rxbuf r s).txie = s.txie := rfl
@[simp] theorem setRing_rxbuf_inited (r : Ring) : (setRing .rxbuf r s).inited = s.inited := rfl
@[simp] theorem setRing_rxbuf_line (r : Ring) : (setRing .rxbuf r s).line = s.line := rfl
@[simp] theorem setRing_rxbuf_m (r : Ring) : (setRing .rxbuf r s).m = s.m := rfl
@[simp] theorem setRing_rxbuf_fault (r : Ring) : (setRing .rxbuf r s).fault = s.fault := rfl
@[simp] theorem setRing_rxbuf_refused (r : Ring) : (setRing .rxbuf r s).refused = s.refused := rfl
@[simp] theorem setRing_rxbuf_ghost (r : Ring) : (setRing .rxbuf r s).ghost = s.ghost := rfl
@[simp] theorem setRing_rxbuf_cfg (r : Ring) : (setRing .rxbuf r s).cfg = s.cfg := rfl
@[simp] theorem setRing_rxbuf_program (r : Ring) : (setRing .rxbuf r s).program = s.program := rfl
@[simp] theorem setRing_rxbuf_lineIn (r : Ring) : (setRing .rxbuf r s).lineIn = s.lineIn := rfl
@[simp] theorem setRing_rxbuf_linePos (r : Ring) : (setRing .rxbuf r s).linePos = s.linePos := rfl
@[simp] theorem setRing_rxbuf_trace (r : Ring) : (setRing .rxbuf r s).trace = s.trace := rfl
@[simp] theorem setRing_rxbuf_draws (r : Ring) : (setRing .rxbuf r s).draws = s.draws := rfl
@[simp] theorem setRing_rxbuf_cmdLog (r : Ring) : (setRing .rxbuf r s).cmdLog = s.cmdLog := rfl

/-! ### `setRing .txbuf` -/

@[simp] theorem setRing_txbuf_rx (r : Ring) : (setRing .txbuf r s).rx = s.rx := rfl
@[simp] theorem setRing_txbuf_tx (r : Ring) : (setRing .txbuf r s).tx = r := rfl
@[simp] theorem setRing_txbuf_gie (r : Ring) : (setRing .txbuf r s).gie = s.gie := rfl
@[simp] theorem setRing_txbuf_rxie (r : Ring) : (setRing .txbuf r s).rxie = s.rxie := rfl
@[simp] theorem setRing_txbuf_txie (r : Ring) : (setRing .txbuf r s).txie = s.txie := rfl
@[simp] theorem setRing_txbuf_inited (r : Ring) : (setRing .txbuf r s).inited = s.inited := rfl
@[simp] theorem setRing_txbuf_line (r : Ring) : (setRing .txbuf r s).line = s.line := rfl
@[simp] theorem setRing_txbuf_m (r : Ring) : (setRing .txbuf r s).m = s.m := rfl
@[simp] theorem setRing_txbuf_fault (r : Ring) : (setRing .txbuf r s).fault = s.fault := rfl
@[simp] theorem setRing_txbuf_refused (r : Ring) : (setRing .txbuf r s).refused = s.refused := rfl
@[simp] theorem setRing_txbuf_ghost (r : Ring) : (setRing .txbuf r s).ghost = s.ghost := rfl
@[simp] theorem setRing_txbuf_cfg (r : Ring) : (setRing .txbuf r s).cfg = s.cfg := rfl
@[simp] theorem setRing_txbuf_program (r : Ring) : (setRing .txbuf r s).program = s.program := rfl
@[simp] theorem setRing_txbuf_lineIn (r : Ring) : (setRing .txbuf r s).lineIn = s.lineIn := rfl
@[simp] theorem setRing_txbuf_linePos (r : Ring) : (setRing .txbuf r s).linePos = s.linePos := rfl
@[simp] theorem setRing_txbuf_trace (r : Ring) : (setRing .txbuf r s).trace = s.trace := rfl
@[simp] theorem setRing_txbuf_draws (r : Ring) : (setRing .txbuf r s).draws = s.draws := rfl
@[simp] theorem setRing_txbuf_cmdLog (r : Ring) : (setRing .txbuf r s).cmdLog = s.cmdLog := rfl

/-! ### `raiseMark` -/

@[simp] theorem raiseMark_rx (k : FaultMark) : (raiseMark k s).rx = s.rx := rfl
@[simp] theorem raiseMark_tx (k : FaultMark) : (raiseMark k s).tx = s.tx := rfl
@[simp] theorem raiseMark_gie (k : FaultMark) : (raiseMark k s).gie = s.gie := rfl
@[simp] theorem raiseMark_rxie (k : FaultMark) : (raiseMark k s).rxie = s.rxie := rfl
@[simp] theorem raiseMark_txie (k : FaultMark) : (raiseMark k s).txie = s.txie := rfl
@[simp] theorem raiseMark_inited (k : FaultMark) : (raiseMark k s).inited = s.inited := rfl
@[simp] theorem raiseMark_line (k : FaultMark) : (raiseMark k s).line = s.line := rfl
@[simp] theorem raiseMark_m (k : FaultMark) : (raiseMark k s).m = s.m := rfl
@[simp] theorem raiseMark_fault (k : FaultMark) : (raiseMark k s).fault = some k := rfl
@[simp] theorem raiseMark_refused (k : FaultMark) : (raiseMark k s).refused = s.refused := rfl
@[simp] theorem raiseMark_ghost (k : FaultMark) : (raiseMark k s).ghost = s.ghost := rfl
@[simp] theorem raiseMark_cfg (k : FaultMark) : (raiseMark k s).cfg = s.cfg := rfl
@[simp] theorem raiseMark_program (k : FaultMark) : (raiseMark k s).program = s.program := rfl
@[simp] theorem raiseMark_lineIn (k : FaultMark) : (raiseMark k s).lineIn = s.lineIn := rfl
@[simp] theorem raiseMark_linePos (k : FaultMark) : (raiseMark k s).linePos = s.linePos := rfl
@[simp] theorem raiseMark_trace (k : FaultMark) : (raiseMark k s).trace = s.trace := rfl
@[simp] theorem raiseMark_draws (k : FaultMark) : (raiseMark k s).draws = s.draws := rfl
@[simp] theorem raiseMark_cmdLog (k : FaultMark) : (raiseMark k s).cmdLog = s.cmdLog := rfl

/-! ### `refuseMark` -/

@[simp] theorem refuseMark_rx (k : RefusalMark) : (refuseMark k s).rx = s.rx := rfl
@[simp] theorem refuseMark_tx (k : RefusalMark) : (refuseMark k s).tx = s.tx := rfl
@[simp] theorem refuseMark_gie (k : RefusalMark) : (refuseMark k s).gie = s.gie := rfl
@[simp] theorem refuseMark_rxie (k : RefusalMark) : (refuseMark k s).rxie = s.rxie := rfl
@[simp] theorem refuseMark_txie (k : RefusalMark) : (refuseMark k s).txie = s.txie := rfl
@[simp] theorem refuseMark_inited (k : RefusalMark) : (refuseMark k s).inited = s.inited := rfl
@[simp] theorem refuseMark_line (k : RefusalMark) : (refuseMark k s).line = s.line := rfl
@[simp] theorem refuseMark_m (k : RefusalMark) : (refuseMark k s).m = s.m := rfl
@[simp] theorem refuseMark_fault (k : RefusalMark) : (refuseMark k s).fault = s.fault := rfl
@[simp] theorem refuseMark_refused (k : RefusalMark) : (refuseMark k s).refused = some k := rfl
@[simp] theorem refuseMark_ghost (k : RefusalMark) : (refuseMark k s).ghost = s.ghost := rfl
@[simp] theorem refuseMark_cfg (k : RefusalMark) : (refuseMark k s).cfg = s.cfg := rfl
@[simp] theorem refuseMark_program (k : RefusalMark) : (refuseMark k s).program = s.program := rfl
@[simp] theorem refuseMark_lineIn (k : RefusalMark) : (refuseMark k s).lineIn = s.lineIn := rfl
@[simp] theorem refuseMark_linePos (k : RefusalMark) : (refuseMark k s).linePos = s.linePos := rfl
@[simp] theorem refuseMark_trace (k : RefusalMark) : (refuseMark k s).trace = s.trace := rfl
@[simp] theorem refuseMark_draws (k : RefusalMark) : (refuseMark k s).draws = s.draws := rfl
@[simp] theorem refuseMark_cmdLog (k : RefusalMark) : (refuseMark k s).cmdLog = s.cmdLog := rfl

/-! ### `handlerEntry` -/

@[simp] theorem handlerEntry_rx : (handlerEntry s).rx = s.rx := rfl
@[simp] theorem handlerEntry_tx : (handlerEntry s).tx = s.tx := rfl
@[simp] theorem handlerEntry_gie : (handlerEntry s).gie = false := rfl
@[simp] theorem handlerEntry_rxie : (handlerEntry s).rxie = s.rxie := rfl
@[simp] theorem handlerEntry_txie : (handlerEntry s).txie = s.txie := rfl
@[simp] theorem handlerEntry_inited : (handlerEntry s).inited = s.inited := rfl
@[simp] theorem handlerEntry_line : (handlerEntry s).line = s.line := rfl
@[simp] theorem handlerEntry_m : (handlerEntry s).m = s.m := rfl
@[simp] theorem handlerEntry_fault : (handlerEntry s).fault = s.fault := rfl
@[simp] theorem handlerEntry_refused : (handlerEntry s).refused = s.refused := rfl
@[simp] theorem handlerEntry_ghost : (handlerEntry s).ghost = s.ghost := rfl
@[simp] theorem handlerEntry_cfg : (handlerEntry s).cfg = s.cfg := rfl
@[simp] theorem handlerEntry_program : (handlerEntry s).program = s.program := rfl
@[simp] theorem handlerEntry_lineIn : (handlerEntry s).lineIn = s.lineIn := rfl
@[simp] theorem handlerEntry_linePos : (handlerEntry s).linePos = s.linePos := rfl
@[simp] theorem handlerEntry_trace : (handlerEntry s).trace = s.trace := rfl
@[simp] theorem handlerEntry_draws : (handlerEntry s).draws = s.draws := rfl
@[simp] theorem handlerEntry_cmdLog : (handlerEntry s).cmdLog = s.cmdLog := rfl

/-! ### `handlerReturn` -/

@[simp] theorem handlerReturn_rx : (handlerReturn s).rx = s.rx := rfl
@[simp] theorem handlerReturn_tx : (handlerReturn s).tx = s.tx := rfl
@[simp] theorem handlerReturn_gie : (handlerReturn s).gie = true := rfl
@[simp] theorem handlerReturn_rxie : (handlerReturn s).rxie = s.rxie := rfl
@[simp] theorem handlerReturn_txie : (handlerReturn s).txie = s.txie := rfl
@[simp] theorem handlerReturn_inited : (handlerReturn s).inited = s.inited := rfl
@[simp] theorem handlerReturn_line : (handlerReturn s).line = s.line := rfl
@[simp] theorem handlerReturn_m : (handlerReturn s).m = s.m := rfl
@[simp] theorem handlerReturn_fault : (handlerReturn s).fault = s.fault := rfl
@[simp] theorem handlerReturn_refused : (handlerReturn s).refused = s.refused := rfl
@[simp] theorem handlerReturn_ghost : (handlerReturn s).ghost = s.ghost := rfl
@[simp] theorem handlerReturn_cfg : (handlerReturn s).cfg = s.cfg := rfl
@[simp] theorem handlerReturn_program : (handlerReturn s).program = s.program := rfl
@[simp] theorem handlerReturn_lineIn : (handlerReturn s).lineIn = s.lineIn := rfl
@[simp] theorem handlerReturn_linePos : (handlerReturn s).linePos = s.linePos := rfl
@[simp] theorem handlerReturn_trace : (handlerReturn s).trace = s.trace := rfl
@[simp] theorem handlerReturn_draws : (handlerReturn s).draws = s.draws := rfl
@[simp] theorem handlerReturn_cmdLog : (handlerReturn s).cmdLog = s.cmdLog := rfl

/-! ### `setPhase` -/

@[simp] theorem setPhase_rx (p : Phase) : (setPhase p s).rx = s.rx := rfl
@[simp] theorem setPhase_tx (p : Phase) : (setPhase p s).tx = s.tx := rfl
@[simp] theorem setPhase_gie (p : Phase) : (setPhase p s).gie = s.gie := rfl
@[simp] theorem setPhase_rxie (p : Phase) : (setPhase p s).rxie = s.rxie := rfl
@[simp] theorem setPhase_txie (p : Phase) : (setPhase p s).txie = s.txie := rfl
@[simp] theorem setPhase_inited (p : Phase) : (setPhase p s).inited = s.inited := rfl
@[simp] theorem setPhase_line (p : Phase) : (setPhase p s).line = s.line := rfl
@[simp] theorem setPhase_m (p : Phase) : (setPhase p s).m = { s.m with phase := p } := rfl
@[simp] theorem setPhase_fault (p : Phase) : (setPhase p s).fault = s.fault := rfl
@[simp] theorem setPhase_refused (p : Phase) : (setPhase p s).refused = s.refused := rfl
@[simp] theorem setPhase_ghost (p : Phase) : (setPhase p s).ghost = s.ghost := rfl
@[simp] theorem setPhase_cfg (p : Phase) : (setPhase p s).cfg = s.cfg := rfl
@[simp] theorem setPhase_program (p : Phase) : (setPhase p s).program = s.program := rfl
@[simp] theorem setPhase_lineIn (p : Phase) : (setPhase p s).lineIn = s.lineIn := rfl
@[simp] theorem setPhase_linePos (p : Phase) : (setPhase p s).linePos = s.linePos := rfl
@[simp] theorem setPhase_trace (p : Phase) : (setPhase p s).trace = s.trace := rfl
@[simp] theorem setPhase_draws (p : Phase) : (setPhase p s).draws = s.draws := rfl
@[simp] theorem setPhase_cmdLog (p : Phase) : (setPhase p s).cmdLog = s.cmdLog := rfl

/-! ### `respond` -/

@[simp] theorem respond_rx (w : Word) : (respond w s).rx = s.rx := rfl
@[simp] theorem respond_tx (w : Word) : (respond w s).tx = s.tx := rfl
@[simp] theorem respond_gie (w : Word) : (respond w s).gie = s.gie := rfl
@[simp] theorem respond_rxie (w : Word) : (respond w s).rxie = s.rxie := rfl
@[simp] theorem respond_txie (w : Word) : (respond w s).txie = s.txie := rfl
@[simp] theorem respond_inited (w : Word) : (respond w s).inited = s.inited := rfl
@[simp] theorem respond_line (w : Word) : (respond w s).line = s.line := rfl
@[simp] theorem respond_m (w : Word) : (respond w s).m = { s.m with res := some w, phase := .idle } := rfl
@[simp] theorem respond_fault (w : Word) : (respond w s).fault = s.fault := rfl
@[simp] theorem respond_refused (w : Word) : (respond w s).refused = s.refused := rfl
@[simp] theorem respond_ghost (w : Word) : (respond w s).ghost = { s.ghost with respLog := s.ghost.respLog ++ [w] } := rfl
@[simp] theorem respond_cfg (w : Word) : (respond w s).cfg = s.cfg := rfl
@[simp] theorem respond_program (w : Word) : (respond w s).program = s.program := rfl
@[simp] theorem respond_lineIn (w : Word) : (respond w s).lineIn = s.lineIn := rfl
@[simp] theorem respond_linePos (w : Word) : (respond w s).linePos = s.linePos := rfl
@[simp] theorem respond_trace (w : Word) : (respond w s).trace = s.trace := rfl
@[simp] theorem respond_draws (w : Word) : (respond w s).draws = s.draws := rfl
@[simp] theorem respond_cmdLog (w : Word) : (respond w s).cmdLog = s.cmdLog := rfl

/-! ### `placeWord` -/

@[simp] theorem placeWord_rx (w : Word) : (placeWord s w).rx = s.rx := rfl
@[simp] theorem placeWord_tx (w : Word) : (placeWord s w).tx = s.tx := rfl
@[simp] theorem placeWord_gie (w : Word) : (placeWord s w).gie = s.gie := rfl
@[simp] theorem placeWord_rxie (w : Word) : (placeWord s w).rxie = s.rxie := rfl
@[simp] theorem placeWord_txie (w : Word) : (placeWord s w).txie = s.txie := rfl
@[simp] theorem placeWord_inited (w : Word) : (placeWord s w).inited = s.inited := rfl
@[simp] theorem placeWord_line (w : Word) : (placeWord s w).line = s.line := rfl
@[simp] theorem placeWord_m (w : Word) : (placeWord s w).m = s.m := rfl
@[simp] theorem placeWord_fault (w : Word) : (placeWord s w).fault = s.fault := rfl
@[simp] theorem placeWord_refused (w : Word) : (placeWord s w).refused = s.refused := rfl
@[simp] theorem placeWord_ghost (w : Word) : (placeWord s w).ghost = s.ghost := rfl
@[simp] theorem placeWord_cfg (w : Word) : (placeWord s w).cfg = s.cfg := rfl
@[simp] theorem placeWord_program (w : Word) : (placeWord s w).program = s.program := rfl
@[simp] theorem placeWord_lineIn (w : Word) : (placeWord s w).lineIn = s.lineIn := rfl
@[simp] theorem placeWord_linePos (w : Word) : (placeWord s w).linePos = s.linePos := rfl
@[simp] theorem placeWord_trace (w : Word) : (placeWord s w).trace = w :: s.trace := rfl
@[simp] theorem placeWord_draws (w : Word) : (placeWord s w).draws = s.draws := rfl
@[simp] theorem placeWord_cmdLog (w : Word) : (placeWord s w).cmdLog = s.cmdLog := rfl

/-! ### `ringOf` after `setRing` -/

@[simp] theorem ringOf_setRing (sp : Space) (r : Ring) : ringOf sp (setRing sp r s) = r := by
  cases sp <;> rfl

@[simp] theorem ringOf_rxbuf : ringOf .rxbuf s = s.rx := rfl

@[simp] theorem ringOf_txbuf : ringOf .txbuf s = s.tx := rfl

/-- Setting one buffer keeps the other. -/
theorem ringOf_setRing_other {sp sp' : Space} (h : sp' ≠ sp) (r : Ring) :
    ringOf sp' (setRing sp r s) = ringOf sp' s := by
  cases sp <;> cases sp' <;> first | rfl | exact absurd rfl h

@[simp] theorem setRing_cfg (sp : Space) (r : Ring) : (setRing sp r s).cfg = s.cfg := by
  cases sp <;> rfl

/-! ### `assertReset` -/

@[simp] theorem assertReset_rx : (assertReset s).rx = ⟨[], 0, 0⟩ := rfl
@[simp] theorem assertReset_tx : (assertReset s).tx = ⟨[], 0, 0⟩ := rfl
@[simp] theorem assertReset_gie : (assertReset s).gie = false := rfl
@[simp] theorem assertReset_rxie : (assertReset s).rxie = false := rfl
@[simp] theorem assertReset_txie : (assertReset s).txie = false := rfl
@[simp] theorem assertReset_inited : (assertReset s).inited = false := rfl
@[simp] theorem assertReset_line : (assertReset s).line = ⟨none, false, none, true⟩ := rfl
@[simp] theorem assertReset_m : (assertReset s).m = ⟨0, .idle, none, none, none, none⟩ := rfl
@[simp] theorem assertReset_fault : (assertReset s).fault = none := rfl
@[simp] theorem assertReset_refused : (assertReset s).refused = none := rfl
@[simp] theorem assertReset_ghost : (assertReset s).ghost = ⟨[], [], [], [], [], []⟩ := rfl
@[simp] theorem assertReset_cfg : (assertReset s).cfg = s.cfg := rfl
@[simp] theorem assertReset_program : (assertReset s).program = s.program := rfl
@[simp] theorem assertReset_lineIn : (assertReset s).lineIn = s.lineIn := rfl
@[simp] theorem assertReset_linePos : (assertReset s).linePos = 0 := rfl
@[simp] theorem assertReset_trace : (assertReset s).trace = s.trace := rfl
@[simp] theorem assertReset_draws : (assertReset s).draws = s.draws := rfl
@[simp] theorem assertReset_cmdLog : (assertReset s).cmdLog = [] := rfl

end Sys2Proof.Machine
end

