-- ==== Sys2Proof/Laws/Ops.lean ====
section
/-! SUPPORT. One lemma for each shared operation that says everything it can do, for the proofs to cite instead of
unfolding it. -/
namespace Sys2Proof.Machine

/-! ## Storage and line registers -/

/-- A slot read that answers: the slot exists and holds the byte. -/
theorem memRead_ok_iff {sp : Space} {i : Nat} {s : State} {v : Byte} :
    memRead sp i s = .ok v ↔ i < s.cfg.capacity ∧ Memory.lookup (ringOf sp s).buf i = some v := by
  unfold memRead
  by_cases h : i < s.cfg.capacity <;> cases Memory.lookup (ringOf sp s).buf i <;> simp [h]

/-- A slot read that raises: only `FLT_READ_UNWRITTEN`, or a slot that does not exist. -/
theorem memRead_error {sp : Space} {i : Nat} {s : State} {a : Abort} (h : memRead sp i s = .error a) :
    (i < s.cfg.capacity ∧ a = .raised (.readUnwritten (.slot sp i))) ∨
      (s.cfg.capacity ≤ i ∧ a = .noSlot sp i) := by
  unfold memRead at h
  split at h
  · split at h
    · cases h
    · cases h; exact .inl ⟨‹_›, rfl⟩
  · cases h; exact .inr ⟨Nat.le_of_not_lt ‹_›, rfl⟩

/-- A slot write that answers: the slot exists and only the slot's byte changes. -/
theorem memWrite_ok_iff {sp : Space} {i : Nat} {v : Byte} {s t : State} :
    memWrite sp i v s = .ok t ↔ i < s.cfg.capacity ∧
      t = setRing sp { ringOf sp s with buf := Memory.store (ringOf sp s).buf i v } s := by
  unfold memWrite
  by_cases h : i < s.cfg.capacity <;> simp [h, eq_comm]

/-- A slot write that fails: the slot does not exist. -/
theorem memWrite_error {sp : Space} {i : Nat} {v : Byte} {s : State} {a : Abort}
    (h : memWrite sp i v s = .error a) : s.cfg.capacity ≤ i ∧ a = .noSlot sp i := by
  unfold memWrite at h
  split at h
  · cases h
  · cases h; exact ⟨Nat.le_of_not_lt ‹_›, rfl⟩

theorem readRegister_ok_iff {α : Type} {l : Location} {r : Option α} {v : α} :
    readRegister l r = .ok v ↔ r = some v := by
  cases r <;> simp [readRegister]

theorem readRegister_error {α : Type} {l : Location} {r : Option α} {a : Abort}
    (h : readRegister l r = .error a) : r = none ∧ a = .raised (.readUnwritten l) := by
  cases r with
  | none => simp only [readRegister, Except.error.injEq] at h; exact ⟨rfl, h.symm⟩
  | some v => simp [readRegister] at h

theorem lineRead_ok_iff {s t : State} {v : Byte} :
    lineRead s = .ok (v, t) ↔
      s.line.rxData = some v ∧ t = { s with line := { s.line with rxAvail := false } } := by
  unfold lineRead readRegister
  cases h : s.line.rxData <;> simp [eq_comm]

theorem lineWrite_ok_iff {s t : State} {v : Byte} :
    lineWrite v s = .ok t ↔ s.line.txReady = true ∧
      t = { s with line := { s.line with txData := some v, txReady := false } } := by
  unfold lineWrite
  by_cases h : s.line.txReady = true <;> simp [h, eq_comm]

theorem lineWrite_error {s : State} {v : Byte} {a : Abort} (h : lineWrite v s = .error a) :
    s.line.txReady = false ∧ a = .raised (.txDataOverwrite v) := by
  unfold lineWrite at h
  split at h
  · cases h
  · rename_i hr; cases h; exact ⟨Bool.eq_false_iff.mpr hr, rfl⟩

/-- The guard: its body runs with `GIE` clear, and the prior value is back afterwards. -/
theorem guarded_ok_iff {body : State → Except Abort State} {s t : State} :
    guarded body s = .ok t ↔
      ∃ u, body { s with gie := false } = .ok u ∧ t = { u with gie := s.gie } := by
  unfold guarded
  cases h : body { s with gie := false } <;> simp [eq_comm]

/-! ## One agent's step -/

/-- A step that has a next state: either its body answered it, or it raised and only the mark was written. -/
theorem settle_next {s t : State} {r : Except Abort State} (h : settle s r = .next t) :
    r = .ok t ∨ ∃ k, r = .error (.raised k) ∧ t = raiseMark k s := by
  unfold settle at h
  split at h
  · cases h; exact .inl rfl
  · cases h; exact .inr ⟨_, rfl, rfl⟩
  · cases h

/-- An agent's step that has a next state: no fault mark before it, its condition held, and its body settled. -/
theorem agentStep_next {a : Agent} {c : Bool} {body : State → Except Abort State} {s t : State}
    (h : agentStep a c body s = .next t) : s.fault = none ∧ c = true ∧ settle s (body s) = .next t := by
  unfold agentStep at h
  split at h
  · cases h
  · split at h
    · exact ⟨‹_›, ‹_›, h⟩
    · cases h

theorem agentStep_of {a : Agent} {c : Bool} {body : State → Except Abort State} {s : State}
    (hf : s.fault = none) (hc : c = true) : agentStep a c body s = settle s (body s) := by
  simp [agentStep, hf, hc]

/-- The same for the mainline, which also needs no refusal mark. -/
theorem mainlineStep_next {c : Bool} {body : State → Except Abort State} {s t : State}
    (h : mainlineStep c body s = .next t) :
    s.fault = none ∧ s.refused = none ∧ c = true ∧ settle s (body s) = .next t := by
  unfold mainlineStep at h
  split at h
  · obtain ⟨hf, hc, hs⟩ := agentStep_next h
    exact ⟨hf, ‹_›, hc, hs⟩
  · split at h <;> cases h

theorem mainlineStep_of {c : Bool} {body : State → Except Abort State} {s : State}
    (hf : s.fault = none) (hr : s.refused = none) (hc : c = true) :
    mainlineStep c body s = settle s (body s) := by
  simp [mainlineStep, agentStep, hf, hr, hc]

/-! ## Command issue -/

/-- Everything issue can do (spec/30_encoding.md R96): set a refusal mark, or latch the command. -/
theorem issue_cases (w : Word) (s : State) :
    (∃ r, issueCheck (fieldsOf w) s.inited = .error r ∧ issue w s = refuseMark r s) ∨
      (∃ p, issueCheck (fieldsOf w) s.inited = .ok p ∧ issue w s = accept w p s) := by
  unfold issue
  cases issueCheck (fieldsOf w) s.inited with
  | error r => exact .inl ⟨r, rfl, rfl⟩
  | ok p => exact .inr ⟨p, rfl, rfl⟩

/-- An accepted word: a command's operation code, its fields clear, and INIT's place in the run respected. -/
theorem issueCheck_ok {f : Fields} {b : Bool} {p : Phase} (h : issueCheck f b = .ok p) :
    firstPhase f.op = some p ∧ f.zero = 0#4 ∧ (f.op = 2#4 ∨ f.data = 0#8) ∧
      ((f.op = 2#4 ∨ f.op = 3#4 ∨ f.op = 4#4) → b = true) ∧ (f.op = 1#4 → b = false) := by
  unfold issueCheck at h
  cases hp : firstPhase f.op with
  | none => simp [hp] at h
  | some q =>
    simp only [hp] at h
    split at h
    · cases h
    · split at h
      · cases h
      · split at h
        · cases h
        · rename_i h1 h2 h3
          cases h
          refine ⟨rfl, ?_, ?_, ?_, ?_⟩
          · by_contra hz; exact h1 (.inl hz)
          · by_contra hz; exact h1 (.inr ⟨fun e => hz (.inl e), fun e => hz (.inr e)⟩)
          · intro ho; cases b <;> simp_all
          · intro ho; cases b <;> simp_all

/-- An accepted word is the word of a command, which its phase belongs to. -/
theorem issueCheck_ok_encode {w : Word} {b : Bool} {p : Phase} (h : issueCheck (fieldsOf w) b = .ok p) :
    ∃ i, isCommand i = true ∧ encode i = w ∧ firstPhase (opcodeOf i) = some p := by
  obtain ⟨hp, hz, hd, -, -⟩ := issueCheck_ok h
  rw [← wordOf_fieldsOf w]
  generalize fieldsOf w = f at *
  obtain ⟨o, z, d⟩ := f
  simp only at hp hz hd
  subst hz
  unfold firstPhase at hp
  split at hp <;> cases hp <;> rename_i ho
  · obtain rfl : o = 1#4 := BitVec.eq_of_toNat_eq (by simpa using ho)
    obtain rfl : d = 0#8 := by simpa using hd
    exact ⟨.init, rfl, rfl, rfl⟩
  · obtain rfl : o = 2#4 := BitVec.eq_of_toNat_eq (by simpa using ho)
    exact ⟨.write d, rfl, rfl, rfl⟩
  · obtain rfl : o = 3#4 := BitVec.eq_of_toNat_eq (by simpa using ho)
    obtain rfl : d = 0#8 := by simpa using hd
    exact ⟨.read, rfl, rfl, rfl⟩
  · obtain rfl : o = 4#4 := BitVec.eq_of_toNat_eq (by simpa using ho)
    obtain rfl : d = 0#8 := by simpa using hd
    exact ⟨.avail, rfl, rfl, rfl⟩
  · obtain rfl : o = 5#4 := BitVec.eq_of_toNat_eq (by simpa using ho)
    obtain rfl : d = 0#8 := by simpa using hd
    exact ⟨.gieClr, rfl, rfl, rfl⟩
  · obtain rfl : o = 6#4 := BitVec.eq_of_toNat_eq (by simpa using ho)
    obtain rfl : d = 0#8 := by simpa using hd
    exact ⟨.gieSet, rfl, rfl, rfl⟩

/-- A word presented in phase IDLE with no mark set is issued. -/
theorem present_of {w : Word} {s : State} (hf : s.fault = none) (hr : s.refused = none)
    (hp : s.m.phase = .idle) : present w s = .next (issue w s) := by
  simp [present, mainlineStep, agentStep, settle, hf, hr, hp]

theorem present_next {w : Word} {s t : State} (h : present w s = .next t) :
    s.fault = none ∧ s.refused = none ∧ s.m.phase = .idle ∧ t = issue w s := by
  obtain ⟨hf, hr, hc, hs⟩ := mainlineStep_next h
  have hp : s.m.phase = .idle := by simpa using hc
  refine ⟨hf, hr, hp, ?_⟩
  rcases settle_next hs with h | ⟨k, h, -⟩
  · cases h; rfl
  · cases h

/-- Every command word's meaning is its word presented on the command port. -/
theorem exec_command {i : Instr} (h : isCommand i = true) (s : State) : exec i s = present (encode i) s := by
  cases i <;> first | rfl | cases h

end Sys2Proof.Machine
end

