-- ==== Sys2Proof/Laws/PerInstr.lean ====
section
/-! SUPPORT. Facts about each operation as syntax, one lemma per constructor. -/
namespace Sys2Proof.Laws.EncodedFields

/-- The encoded word carries the operation's code, a clear must-be-zero field and its operand byte, and passes the
three checks of a well-formed word (spec/30_encoding.md R90, R93, R97). -/
def Statement (i : Instr) : Prop :=
  fieldsOf (encode i) = ⟨opcodeOf i, 0#4, dataOf i⟩ ∧ (fieldsOf (encode i)).wellFormed = true

/-- The fields are the operation's, and its code and data pass the checks. -/
theorem of_checks (i : Instr) (h : (⟨opcodeOf i, 0#4, dataOf i⟩ : Fields).wellFormed = true) : Statement i :=
  ⟨fieldsOf_encode i, (fieldsOf_encode i).symm ▸ h⟩

theorem init : Statement .init := of_checks _ (by decide)
theorem write (d : Byte) : Statement (.write d) := of_checks _ rfl
theorem read : Statement .read := of_checks _ (by decide)
theorem avail : Statement .avail := of_checks _ (by decide)
theorem gieClr : Statement .gieClr := of_checks _ (by decide)
theorem gieSet : Statement .gieSet := of_checks _ (by decide)
theorem isrRx : Statement .isrRx := of_checks _ (by decide)
theorem isrTx : Statement .isrTx := of_checks _ (by decide)
theorem lineRx (d : Byte) : Statement (.lineRx d) := of_checks _ rfl
theorem lineTx : Statement .lineTx := of_checks _ (by decide)
theorem mstep : Statement .mstep := of_checks _ (by decide)

end Sys2Proof.Laws.EncodedFields
end

