-- ==== Sys2Proof/Laws/Program.lean ====
section
/-! SUPPORT. What a mainline program answers: by its form, and for the programs compiled from statements by position. -/
namespace Sys2Proof.Machine

@[simp] theorem answer_nodes (ns : List ProgNode) (h : List Word) : answer (.nodes ns) h = automatonAnswer ns h := rfl

@[simp] theorem answer_free (n : Nat) (h : List Word) : answer (.free n) h = Config.freeProgram n h := rfl

/-- A node that sends every response to one successor moves there. -/
theorem successor_of_branchless {ns : List ProgNode} {n : Nat} {node : ProgNode} (h : ns[n]? = some node)
    (hb : node.branches = []) (r : Word) : successor ns n r = node.otherwise := by
  simp [successor, h, hb]

/-- A straight-line program answers by the number of responses alone. -/
theorem answer_straightLine (choices : List Choice) (h : List Word) :
    answer (straightLine choices) h = choices[h.length]?.getD .halt := by
  have node : ∀ k, ((choices.zip (List.range choices.length)).map
      fun c => (⟨c.1, [], c.2 + 1⟩ : ProgNode))[k]? = choices[k]?.map fun c => (⟨c, [], k + 1⟩ : ProgNode) := by
    intro k
    by_cases hk : k < choices.length
    · simp [hk]
    · simp [Nat.le_of_not_lt hk]
  simp only [straightLine, answer_nodes, automatonAnswer]
  generalize hns : (choices.zip (List.range choices.length)).map (fun c => (⟨c.1, [], c.2 + 1⟩ : ProgNode)) = ns at node
  have run : ∀ (h : List Word) (k : Nat), k ≤ choices.length →
      h.foldl (successor ns) k = min (k + h.length) choices.length := by
    intro h
    induction h with
    | nil => intro k hk; simpa using hk
    | cons r rest ih =>
      intro k hk
      by_cases hlt : k < choices.length
      · have : successor ns k r = k + 1 := by
          simpa using successor_of_branchless (node := ⟨choices[k], [], k + 1⟩) (by simp [node, hlt]) rfl r
        rw [List.foldl_cons, this, ih _ hlt, List.length_cons]
        congr 1; omega
      · have hlen : k = choices.length := by omega
        have : successor ns k r = k := by simp [successor, node, hlen]
        rw [List.foldl_cons, this, ih _ hk, List.length_cons]
        omega
  rw [run h 0 (Nat.zero_le _), node]
  by_cases hk : h.length < choices.length
  · simp [Nat.min_eq_left hk.le, hk]
  · simp [Nat.min_eq_right (Nat.le_of_not_lt hk), List.getElem?_eq_none (Nat.le_of_not_lt hk)]

/-- A compiled program answers the choice of its statements' expansion at the number of responses. -/
theorem answer_compileProgram (cfg : Config) (ops : List SourceOp) (h : List Word) :
    answer (compileProgram cfg ops) h = ((ops.map (expand cfg)).flatten)[h.length]?.getD .halt :=
  answer_straightLine _ h

end Sys2Proof.Machine
end

