-- ==== Sys2Proof/Laws/RingBuffer.lean ====
section
/-! SUPPORT. The arithmetic of a ring buffer's indices and what a push and a pop do to the occupied range
(spec/40_ring_buffer.md R120 to R126). -/
namespace Sys2Proof.Machine

/-- The reduction modulo `C` is a compare and a select (R126). -/
theorem advance_eq (cfg : Config) {i : Nat} (h : i < cfg.capacity) :
    advance cfg i = if i + 1 = cfg.capacity then 0 else i + 1 := by
  unfold advance
  split
  · rename_i e; rw [e]; exact Nat.mod_self _
  · exact Nat.mod_eq_of_lt (by omega)

theorem advance_lt (cfg : Config) (i : Nat) : advance cfg i < cfg.capacity :=
  Nat.mod_lt _ (by have := cfg.capacity_ge; omega)

/-- An index differs from the next one: `C` is at least 2. -/
theorem advance_ne (cfg : Config) {i : Nat} (h : i < cfg.capacity) : advance cfg i ≠ i := by
  have := cfg.capacity_ge
  rw [advance_eq cfg h]
  split <;> omega

theorem ringCount_lt {c : Nat} {r : Ring} (hh : r.head < c) (ht : r.tail < c) : ringCount c r < c := by
  unfold ringCount
  split <;> omega

theorem ringCount_eq_zero_iff {c : Nat} {r : Ring} (hh : r.head < c) :
    ringCount c r = 0 ↔ r.head = r.tail := by
  unfold ringCount
  split <;> omega

/-- A buffer is full exactly when it holds `C - 1` bytes (R120). -/
theorem ringCount_full_iff (cfg : Config) {r : Ring} (hh : r.head < cfg.capacity) (ht : r.tail < cfg.capacity) :
    ringCount cfg.capacity r = cfg.capacity - 1 ↔ advance cfg r.tail = r.head := by
  rw [advance_eq cfg ht]
  unfold ringCount
  split <;> split <;> omega

theorem ringCount_push (cfg : Config) {r : Ring} (hh : r.head < cfg.capacity) (ht : r.tail < cfg.capacity)
    (hn : advance cfg r.tail ≠ r.head) (b : Memory) :
    ringCount cfg.capacity ⟨b, r.head, advance cfg r.tail⟩ = ringCount cfg.capacity r + 1 := by
  rw [advance_eq cfg ht] at *
  unfold ringCount
  simp only
  split <;> split <;> split <;> simp_all <;> omega

theorem ringCount_pop (cfg : Config) {r : Ring} (hh : r.head < cfg.capacity) (ht : r.tail < cfg.capacity)
    (hn : r.head ≠ r.tail) (b : Memory) :
    ringCount cfg.capacity ⟨b, advance cfg r.head, r.tail⟩ + 1 = ringCount cfg.capacity r := by
  rw [advance_eq cfg hh]
  unfold ringCount
  simp only
  split <;> split <;> split <;> simp_all <;> omega

theorem mem_occupied_iff {c : Nat} {r : Ring} {i : Nat} :
    i ∈ occupied c r ↔ ∃ k < ringCount c r, (r.head + k) % c = i := by
  simp [occupied]

/-- The slot at `tail` is outside the occupied range (R121). -/
theorem tail_not_occupied {c : Nat} {r : Ring} (hh : r.head < c) (ht : r.tail < c) :
    r.tail ∉ occupied c r := by
  rw [mem_occupied_iff]
  rintro ⟨k, hk, he⟩
  have hc := ringCount_lt hh ht
  by_cases h : r.head + k < c
  · rw [Nat.mod_eq_of_lt h] at he
    unfold ringCount at hk
    split at hk <;> omega
  · rw [Nat.mod_eq_sub_mod (by omega), Nat.mod_eq_of_lt (by omega)] at he
    unfold ringCount at hk
    split at hk <;> omega

/-- `head` plus the count, modulo `C`, is `tail`. -/
theorem head_add_count {c : Nat} {r : Ring} (ht : r.tail < c) (hh : r.head < c) :
    (r.head + ringCount c r) % c = r.tail := by
  unfold ringCount
  split
  · rw [Nat.mod_eq_of_lt (by omega)]; omega
  · rw [Nat.mod_eq_sub_mod (by omega), Nat.mod_eq_of_lt (by omega)]; omega

/-- A push adds the slot `tail` at the end of the occupied range (R125). -/
theorem occupied_push (cfg : Config) {r : Ring} (hh : r.head < cfg.capacity) (ht : r.tail < cfg.capacity)
    (hn : advance cfg r.tail ≠ r.head) (b : Memory) :
    occupied cfg.capacity ⟨b, r.head, advance cfg r.tail⟩ = occupied cfg.capacity r ++ [r.tail] := by
  unfold occupied
  rw [ringCount_push cfg hh ht hn b, List.range_succ, List.map_append, List.map_singleton,
    head_add_count ht hh]

/-- A pop removes the slot `head` from the front of the occupied range (R125). -/
theorem occupied_pop (cfg : Config) {r : Ring} (hh : r.head < cfg.capacity) (ht : r.tail < cfg.capacity)
    (hn : r.head ≠ r.tail) (b : Memory) :
    occupied cfg.capacity r = r.head :: occupied cfg.capacity ⟨b, advance cfg r.head, r.tail⟩ := by
  unfold occupied
  rw [← ringCount_pop cfg hh ht hn b, List.range_succ_eq_map, List.map_cons, List.map_map]
  congr 1
  · simp [Nat.mod_eq_of_lt hh]
  · refine List.map_congr_left fun k _ => ?_
    simp only [Function.comp, advance, Nat.succ_eq_add_one, Nat.mod_add_mod]
    congr 1
    omega

/-- Storage outside the occupied range does not matter to the content. -/
theorem ringContent_congr {c : Nat} {r r' : Ring} (hh : r'.head = r.head) (ht : r'.tail = r.tail)
    (hb : ∀ i ∈ occupied c r, Memory.lookup r'.buf i = Memory.lookup r.buf i) :
    ringContent c r' = ringContent c r := by
  have ho : occupied c r' = occupied c r := by
    unfold occupied ringCount; rw [hh, ht]
  unfold ringContent
  rw [ho]
  exact List.filterMap_congr hb

/-- A push appends the byte to the content (R125). -/
theorem ringContent_push (cfg : Config) {r : Ring} (hh : r.head < cfg.capacity) (ht : r.tail < cfg.capacity)
    (hn : advance cfg r.tail ≠ r.head) (v : Byte) :
    ringContent cfg.capacity ⟨Memory.store r.buf r.tail v, r.head, advance cfg r.tail⟩ =
      ringContent cfg.capacity r ++ [v] := by
  have h := tail_not_occupied hh ht
  unfold ringContent
  rw [occupied_push cfg hh ht hn, List.filterMap_append]
  congr 1
  · exact List.filterMap_congr fun i hi => Memory.lookup_store_other _ _ (by rintro rfl; exact h hi)
  · simp [Memory.lookup_store]

/-- A pop takes the byte at the head from the front of the content (R125). -/
theorem ringContent_pop (cfg : Config) {r : Ring} (hh : r.head < cfg.capacity) (ht : r.tail < cfg.capacity)
    (hn : r.head ≠ r.tail) {v : Byte} (hv : Memory.lookup r.buf r.head = some v) :
    ringContent cfg.capacity r = v :: ringContent cfg.capacity ⟨r.buf, advance cfg r.head, r.tail⟩ := by
  unfold ringContent
  rw [occupied_pop cfg hh ht hn r.buf]
  simp [hv]

theorem ringContent_empty {c : Nat} {r : Ring} (h : r.head = r.tail) : ringContent c r = [] := by
  simp [ringContent, occupied, ringCount, h]

/-- The head of a buffer that is not empty is an occupied slot. -/
theorem head_occupied (cfg : Config) {r : Ring} (hh : r.head < cfg.capacity) (ht : r.tail < cfg.capacity)
    (hn : r.head ≠ r.tail) : r.head ∈ occupied cfg.capacity r := by
  rw [occupied_pop cfg hh ht hn r.buf]
  exact List.mem_cons_self

/-- Where every occupied slot holds a byte, the content has as many bytes as the count (R125). -/
theorem ringContent_length {c : Nat} {r : Ring}
    (hp : ∀ i ∈ occupied c r, (Memory.lookup r.buf i).isSome = true) :
    (ringContent c r).length = ringCount c r := by
  have : ∀ l : List Nat, (∀ i ∈ l, (Memory.lookup r.buf i).isSome = true) →
      (l.filterMap (Memory.lookup r.buf)).length = l.length := by
    intro l
    induction l with
    | nil => simp
    | cons i rest ih =>
      intro h
      obtain ⟨v, hv⟩ := Option.isSome_iff_exists.mp (h i List.mem_cons_self)
      simp [hv, ih fun j hj => h j (List.mem_cons_of_mem _ hj)]
  unfold ringContent
  rw [this _ hp]
  simp [occupied]

/-- `tryPush` on a buffer with room: the byte in the slot `tail`, the tail advanced, nothing else (R121). -/
theorem tryPush_of_room {sp : Space} {s : State} (ht : (ringOf sp s).tail < s.cfg.capacity)
    (hn : advance s.cfg (ringOf sp s).tail ≠ (ringOf sp s).head) (v : Byte) :
    tryPush sp v s = .ok (some (setRing sp
      ⟨Memory.store (ringOf sp s).buf (ringOf sp s).tail v, (ringOf sp s).head,
        advance s.cfg (ringOf sp s).tail⟩ s)) := by
  cases sp <;> simp_all [tryPush, memWrite, setRing, ringOf]

/-- `tryPush` on a full buffer (R121). -/
theorem tryPush_of_full {sp : Space} {s : State}
    (hn : advance s.cfg (ringOf sp s).tail = (ringOf sp s).head) (v : Byte) :
    tryPush sp v s = .ok none := by
  simp [tryPush, hn]

/-- `tryPop` on a buffer that is not empty: the byte at the head, the head advanced, nothing else (R122). -/
theorem tryPop_of_byte {sp : Space} {s : State} {v : Byte} (hh : (ringOf sp s).head < s.cfg.capacity)
    (hn : (ringOf sp s).head ≠ (ringOf sp s).tail)
    (hv : Memory.lookup (ringOf sp s).buf (ringOf sp s).head = some v) :
    tryPop sp s = .ok (some (v, setRing sp
      { ringOf sp s with head := advance s.cfg (ringOf sp s).head } s)) := by
  simp [tryPop, hn, memRead, hh, hv]

/-- `tryPop` on an empty buffer (R122). -/
theorem tryPop_of_empty {sp : Space} {s : State} (hn : (ringOf sp s).head = (ringOf sp s).tail) :
    tryPop sp s = .ok none := by
  simp [tryPop, hn]

end Sys2Proof.Machine
end

