-- ==== Sys2Proof/Laws/Step.lean ====
section
/-! SUPPORT. Everything a step can do, said once: `Missing` lists the ways a step raises a fault and `Transition` the
next states of every operation, each with the conditions it is taken under; `exec_cases` is the inversion every
invariant, frame and ownership proof can start from. -/
namespace Sys2Proof.Machine

/-- The ways the step of an operation raises a fault (spec/60_exceptions.md R231, and log 2). -/
inductive Missing (s : State) : Instr → FaultMark → Prop where
  | w1 : s.m.phase = .w1 → s.m.b = none → Missing s .mstep (.readUnwritten (.latch .b))
  | w3 : s.m.phase = .w3 → s.m.b = none → Missing s .mstep (.readUnwritten (.latch .b))
  | w4 : s.m.phase = .w4 → s.m.nt = none → Missing s .mstep (.readUnwritten (.latch .nt))
  | r2 : s.m.phase = .r2 → s.rx.head < s.cfg.capacity → Memory.lookup s.rx.buf s.rx.head = none →
      Missing s .mstep (.readUnwritten (.slot .rxbuf s.rx.head))
  | r3 : s.m.phase = .r3 → s.m.v = none → Missing s .mstep (.readUnwritten (.latch .v))
  | rxData : isrRxEnabled s = true → s.line.rxData = none → Missing s .isrRx (.readUnwritten .lineRxData)
  | emptyPop : isrTxEnabled s = true → s.tx.head = s.tx.tail → Missing s .isrTx (.txEmptyPop s.tx.head)
  | txSlot : isrTxEnabled s = true → s.tx.head ≠ s.tx.tail → s.tx.head < s.cfg.capacity →
      Memory.lookup s.tx.buf s.tx.head = none →
      Missing s .isrTx (.readUnwritten (.slot .txbuf s.tx.head))
  | txData : lineTxEnabled s = true → s.line.txData = none → Missing s .lineTx (.readUnwritten .lineTxData)

/-- The next states of every operation. -/
inductive Transition (s : State) : Instr → State → Prop where
  /-- Only the `FAULT` mark (R232). -/
  | raised {i : Instr} {k : FaultMark} : Missing s i k → Transition s i (raiseMark k s)
  /-- A command word on the port, refused or latched (R96). -/
  | presented {i : Instr} : isCommand i = true → s.m.phase = .idle → s.refused = none →
      Transition s i (issue (encode i) s)
  /-- The program's next command (R96). -/
  | issued {w : Word} : s.m.phase = .idle → s.refused = none → nextChoice s = .command w →
      Transition s .mstep (issue w s)
  /-- A pseudo-operation refused (R193, R197). -/
  | operand : s.m.phase = .idle → s.refused = none → nextChoice s = .refuseOperand →
      Transition s .mstep (refuseMark .operand s)
  | n1 : s.m.phase = .n1 → s.refused = none →
      Transition s .mstep (respond respDone { s with rxie := true, inited := true })
  | s1 : s.m.phase = .s1 → s.refused = none → Transition s .mstep (respond respDone { s with gie := true })
  | k1 : s.m.phase = .k1 → s.refused = none → Transition s .mstep (respond respDone { s with gie := false })
  | fast {v : Byte} : s.m.phase = .w1 → s.refused = none → s.tx.head = s.tx.tail → s.line.txReady = true →
      s.m.b = some v →
      Transition s .mstep (respond respWritten { s with line := { s.line with txData := some v, txReady := false } })
  | slow : s.m.phase = .w1 → s.refused = none → ¬ (s.tx.head = s.tx.tail ∧ s.line.txReady = true) →
      Transition s .mstep (setPhase .w2 s)
  | spin : s.m.phase = .w2 → s.refused = none → advance s.cfg s.tx.tail = s.tx.head →
      Transition s .mstep { s with m := { s.m with nt := some (advance s.cfg s.tx.tail), phase := .w2 } }
  | room : s.m.phase = .w2 → s.refused = none → advance s.cfg s.tx.tail ≠ s.tx.head →
      Transition s .mstep { s with m := { s.m with nt := some (advance s.cfg s.tx.tail), phase := .w3 } }
  | store {v : Byte} : s.m.phase = .w3 → s.refused = none → s.m.b = some v → s.tx.tail < s.cfg.capacity →
      Transition s .mstep (setPhase .w4 { s with tx := { s.tx with buf := Memory.store s.tx.buf s.tx.tail v } })
  | commit {n : Nat} : s.m.phase = .w4 → s.refused = none → s.m.nt = some n →
      Transition s .mstep (respond respWritten { s with tx := { s.tx with tail := n }, txie := true })
  | readEmpty : s.m.phase = .r1 → s.refused = none → s.rx.head = s.rx.tail →
      Transition s .mstep (respond respNone s)
  | readSome : s.m.phase = .r1 → s.refused = none → s.rx.head ≠ s.rx.tail →
      Transition s .mstep (setPhase .r2 s)
  | latch {v : Byte} : s.m.phase = .r2 → s.refused = none → s.rx.head < s.cfg.capacity →
      Memory.lookup s.rx.buf s.rx.head = some v →
      Transition s .mstep { s with m := { s.m with v := some v, phase := .r3 } }
  | deliver {v : Byte} : s.m.phase = .r3 → s.refused = none → s.m.v = some v →
      Transition s .mstep (respond (zext16 v) { s with rx := { s.rx with head := advance s.cfg s.rx.head } })
  | avail : s.m.phase = .a1 → s.refused = none →
      Transition s .mstep (respond (countWord (ringCount s.cfg.capacity s.rx)) s)
  | drop {v : Byte} : isrRxEnabled s = true → s.line.rxData = some v → advance s.cfg s.rx.tail = s.rx.head →
      Transition s .isrRx { s with
        line := { s.line with rxAvail := false }
        ghost := { s.ghost with rxDropped := s.ghost.rxDropped ++ [v] } }
  | receive {v : Byte} : isrRxEnabled s = true → s.line.rxData = some v →
      advance s.cfg s.rx.tail ≠ s.rx.head → s.rx.tail < s.cfg.capacity →
      Transition s .isrRx { s with
        rx := ⟨Memory.store s.rx.buf s.rx.tail v, s.rx.head, advance s.cfg s.rx.tail⟩
        line := { s.line with rxAvail := false }
        ghost := { s.ghost with rxAccepted := s.ghost.rxAccepted ++ [v] } }
  | transmit {v : Byte} : isrTxEnabled s = true → s.tx.head ≠ s.tx.tail → s.tx.head < s.cfg.capacity →
      Memory.lookup s.tx.buf s.tx.head = some v →
      Transition s .isrTx { s with
        tx := { s.tx with head := advance s.cfg s.tx.head }
        line := { s.line with txData := some v, txReady := false }
        txie := if advance s.cfg s.tx.head = s.tx.tail then false else s.txie }
  | overrun {d : Byte} : lineRxEnabled d s = true → s.line.rxAvail = true →
      Transition s (.lineRx d) { s with
        ghost := { s.ghost with rxHwLost := s.ghost.rxHwLost ++ [d] }, linePos := s.linePos + 1 }
  | arrive {d : Byte} : lineRxEnabled d s = true → s.line.rxAvail = false →
      Transition s (.lineRx d) { s with
        line := { s.line with rxData := some d, rxAvail := true }, linePos := s.linePos + 1 }
  | depart {v : Byte} : lineTxEnabled s = true → s.line.txData = some v →
      Transition s .lineTx { s with
        ghost := { s.ghost with lineOut := s.ghost.lineOut ++ [v] }
        line := { s.line with txReady := true } }

/-- A handler that has been accepted runs with `GIE` 1. -/
theorem isrRxEnabled_iff {s : State} : isrRxEnabled s = true ↔
    s.fault = none ∧ s.gie = true ∧ s.rxie = true ∧ s.line.rxAvail = true := by
  simp [isrRxEnabled, irqRx, and_assoc, and_comm, and_left_comm]

theorem isrTxEnabled_iff {s : State} : isrTxEnabled s = true ↔
    s.fault = none ∧ s.gie = true ∧ s.txie = true ∧ s.line.txReady = true := by
  simp [isrTxEnabled, irqTx, and_assoc, and_comm, and_left_comm]

theorem lineRxEnabled_iff {s : State} {d : Byte} : lineRxEnabled d s = true ↔
    s.fault = none ∧ s.inited = true ∧ s.lineIn[s.linePos]? = some d := by
  simp [lineRxEnabled, nextInput, and_assoc]

theorem lineTxEnabled_iff {s : State} : lineTxEnabled s = true ↔ s.fault = none ∧ s.line.txReady = false := by
  simp [lineTxEnabled]

theorem cmdReady_iff {s : State} : cmdReady s = true ↔
    s.fault = none ∧ s.refused = none ∧ s.m.phase = .idle := by
  simp [cmdReady, unmarked, and_assoc]

theorem unmarked_iff {s : State} : unmarked s = true ↔ s.fault = none ∧ s.refused = none := by
  simp [unmarked]

theorem mstepEnabled_iff {s : State} : mstepEnabled s = true ↔
    s.fault = none ∧ s.refused = none ∧ (s.m.phase = .idle → nextChoice s ≠ .halt) := by
  simp [mstepEnabled, mainlineHasStep, unmarked, and_assoc, imp_iff_not_or]

/-- MSTEP with a phase in progress and no mark set runs that phase. -/
theorem exec_mstep_of_phase {s : State} (hu : unmarked s = true) (hp : s.m.phase ≠ .idle) :
    exec .mstep s = settle s (mainlineBody s) := by
  obtain ⟨hf, hr⟩ := unmarked_iff.mp hu
  exact mainlineStep_of hf hr (by simp [mainlineHasStep, hp])

/-- MSTEP in phase IDLE with no mark set acts on the program's answer. -/
theorem exec_mstep_idle {s : State} (hu : unmarked s = true) (hp : s.m.phase = .idle) (hn : nextChoice s ≠ .halt) :
    exec .mstep s = .next (issueNext s) := by
  obtain ⟨hf, hr⟩ := unmarked_iff.mp hu
  refine (mainlineStep_of hf hr (by simpa [mainlineHasStep, hp] using hn)).trans ?_
  simp [mainlineBody, hp, settle]

/-- A settled body that answers a next state took one of the operation's transitions. -/
theorem raised_of {s t : State} {i : Instr} {r : Except Abort State} (h : settle s r = .next t)
    (ho : ∀ u, r = .ok u → Transition s i u) (hm : ∀ k, r = .error (.raised k) → Missing s i k) :
    Transition s i t := by
  rcases settle_next h with h | ⟨k, hk, rfl⟩
  · exact ho t h
  · exact .raised (hm k hk)

/-- The mainline's step, phase by phase. -/
theorem mainlineBody_cases {s t : State} (hr : s.refused = none) (hc : mainlineHasStep s = true)
    (h : settle s (mainlineBody s) = .next t) : Transition s .mstep t := by
  unfold mainlineBody at h
  split at h
  case h_1 hp =>
    cases h
    have hn : nextChoice s ≠ .halt := by simpa [mainlineHasStep, hp] using hc
    unfold issueNext
    cases hq : nextChoice s with
    | halt => exact absurd hq hn
    | command w => exact .issued hp hr hq
    | refuseOperand => exact .operand hp hr hq
  case h_2 hp => cases h; exact .n1 hp hr
  case h_3 hp =>
    unfold phaseW1 guarded at h
    by_cases hf : s.tx.head = s.tx.tail ∧ s.line.txReady = true
    · cases hb : s.m.b with
      | none =>
        simp [ringEmpty, ringOf, hf, hb, readRegister, settle] at h
        exact h ▸ .raised (.w1 hp hb)
      | some v =>
        simp [ringEmpty, ringOf, hf, hb, readRegister, lineWrite, settle, respond] at h
        subst h
        simpa [respond, hb] using Transition.fast hp hr hf.1 hf.2 hb
    · have : (ringEmpty .txbuf { s with gie := false } && s.line.txReady) = false := by
        simpa [ringEmpty, ringOf, Bool.and_eq_false_iff, not_and_or] using hf
      simp [this, settle, setPhase] at h
      exact h ▸ .slow hp hr hf
  case h_4 hp =>
    unfold phaseW2 at h
    simp only [settle, Host.Outcome.next.injEq] at h
    split at h
    · exact h ▸ .spin hp hr ‹_›
    · exact h ▸ .room hp hr ‹_›
  case h_5 hp =>
    refine raised_of h (fun u hu => ?_) fun k hk => ?_
    · unfold phaseW3 at hu
      split at hu
      · rename_i v hv
        rw [readRegister_ok_iff] at hv
        split at hu
        · rename_i x hx'
          obtain ⟨hx, rfl⟩ := memWrite_ok_iff.mp hx'
          cases hu
          exact .store hp hr hv hx
        · cases hu
      · cases hu
    · unfold phaseW3 at hk
      split at hk
      · split at hk
        · cases hk
        · rename_i a ha
          obtain ⟨-, rfl⟩ := memWrite_error ha
          cases hk
      · rename_i a ha
        obtain ⟨hb, rfl⟩ := readRegister_error ha
        cases hk
        exact .w3 hp hb
  case h_6 hp =>
    unfold phaseW4 guarded at h
    cases hb : s.m.nt with
    | none =>
      simp [hb, readRegister, settle] at h
      exact h ▸ .raised (.w4 hp hb)
    | some v =>
      simp [hb, readRegister, settle, respond] at h
      subst h
      simpa [respond, hb] using Transition.commit hp hr hb
  case h_7 hp =>
    unfold phaseR1 at h
    by_cases hf : s.rx.head = s.rx.tail
    · simp [ringEmpty, ringOf, hf, settle] at h
      exact h ▸ .readEmpty hp hr hf
    · simp [ringEmpty, ringOf, hf, settle] at h
      exact h ▸ .readSome hp hr hf
  case h_8 hp =>
    refine raised_of h (fun u hu => ?_) fun k hk => ?_
    · unfold phaseR2 at hu
      split at hu
      · rename_i v hv
        obtain ⟨hc, hv⟩ := memRead_ok_iff.mp hv
        cases hu
        exact .latch hp hr hc hv
      · cases hu
    · unfold phaseR2 at hk
      split at hk
      · cases hk
      · rename_i a ha
        cases hk
        unfold memRead at ha
        split at ha
        · split at ha
          · cases ha
          · cases ha; exact .r2 hp ‹_› ‹_›
        · cases ha
  case h_9 hp =>
    unfold phaseR3 at h
    cases hb : s.m.v with
    | none =>
      simp [hb, readRegister, settle] at h
      exact h ▸ .raised (.r3 hp hb)
    | some v =>
      simp [hb, readRegister, settle] at h
      exact h ▸ .deliver hp hr hb
  case h_10 hp => cases h; exact .avail hp hr
  case h_11 hp => cases h; exact .s1 hp hr
  case h_12 hp => cases h; exact .k1 hp hr

/-- The receive handler. -/
theorem isrRx_cases {s t : State} (hc : isrRxEnabled s = true)
    (h : settle s (isrRxBody s) = .next t) : Transition s .isrRx t := by
  obtain ⟨hf, hg, hx, ha⟩ := isrRxEnabled_iff.mp hc
  cases hd : s.line.rxData with
  | none =>
    simp [isrRxBody, lineRead, readRegister, hd, settle] at h
    exact h ▸ .raised (.rxData hc hd)
  | some v =>
    by_cases hn : advance s.cfg s.rx.tail = s.rx.head
    · simp [isrRxBody, lineRead, readRegister, hd, settle, tryPush, ringOf, hn, handlerReturn, handlerEntry] at h
      subst h
      simpa [hd, hg] using Transition.drop hc hd hn
    · by_cases ht : s.rx.tail < s.cfg.capacity
      · simp [isrRxBody, lineRead, readRegister, hd, settle, tryPush, ringOf, hn, handlerReturn, handlerEntry,
          memWrite, ht, setRing] at h
        subst h
        simpa [hd, hg] using Transition.receive hc hd hn ht
      · simp [isrRxBody, lineRead, readRegister, hd, settle, tryPush, ringOf, hn, handlerEntry,
          memWrite, ht] at h

/-- The transmit handler. -/
theorem isrTx_cases {s t : State} (hc : isrTxEnabled s = true)
    (h : settle s (isrTxBody s) = .next t) : Transition s .isrTx t := by
  obtain ⟨hf, hg, hx, ha⟩ := isrTxEnabled_iff.mp hc
  by_cases he : s.tx.head = s.tx.tail
  · simp [isrTxBody, tryPop, ringOf, he, settle] at h
    exact h ▸ (he ▸ .raised (.emptyPop hc he))
  · by_cases hl : s.tx.head < s.cfg.capacity
    · cases hd : Memory.lookup s.tx.buf s.tx.head with
      | none =>
        simp [isrTxBody, tryPop, ringOf, he, settle, memRead, hl, hd] at h
        exact h ▸ .raised (.txSlot hc he hl hd)
      | some v =>
        simp [isrTxBody, tryPop, ringOf, he, settle, memRead, hl, hd, lineWrite, ha, handlerEntry, setRing,
          disarmIfEmpty, ringEmpty, handlerReturn] at h
        subst h
        convert Transition.transmit hc he hl hd using 1
        split <;> simp_all
    · simp [isrTxBody, tryPop, ringOf, he, settle, memRead, hl] at h

/-- INVERSION: an operation that has a next state found no fault mark and took one of its transitions. -/
theorem exec_cases {i : Instr} {s t : State} (h : exec i s = .next t) :
    s.fault = none ∧ Transition s i t := by
  have cmd : isCommand i = true → s.fault = none ∧ Transition s i t := fun hi => by
    rw [exec_command hi] at h
    obtain ⟨hf, hr, hp, rfl⟩ := present_next h
    exact ⟨hf, .presented hi hp hr⟩
  cases i with
  | init | write | read | avail | gieClr | gieSet => exact cmd rfl
  | isrRx =>
    obtain ⟨hf, hc, hs⟩ := agentStep_next h
    exact ⟨hf, isrRx_cases hc hs⟩
  | isrTx =>
    obtain ⟨hf, hc, hs⟩ := agentStep_next h
    exact ⟨hf, isrTx_cases hc hs⟩
  | lineRx d =>
    obtain ⟨hf, hc, hs⟩ := agentStep_next h
    refine ⟨hf, ?_⟩
    unfold lineRxBody at hs
    split at hs
    · cases hs; exact .overrun hc ‹_›
    · cases hs; exact .arrive hc (Bool.eq_false_iff.mpr ‹_›)
  | lineTx =>
    obtain ⟨hf, hc, hs⟩ := agentStep_next h
    refine ⟨hf, ?_⟩
    cases hd : s.line.txData with
    | none =>
      simp [lineTxBody, hd, readRegister, settle] at hs
      exact hs ▸ .raised (.txData hc hd)
    | some v =>
      simp [lineTxBody, hd, readRegister, settle] at hs
      subst hs
      simpa [hd] using Transition.depart hc hd
  | mstep =>
    obtain ⟨hf, hr, hc, hs⟩ := mainlineStep_next h
    exact ⟨hf, mainlineBody_cases hr hc hs⟩

/-- INVERSION of a step of the block: it is an operation's step, from the same state but for the schedule, or a
reserved word presented on the command port. -/
theorem step_cases {s t : State} (h : step s = .next t) :
    (∃ i tr n, exec i { s with trace := tr, draws := n } = .next t) ∨
      (∃ w tr, present w { s with trace := tr } = .next t) := by
  unfold step at h
  split at h
  · rename_i i u hu
    refine .inl ⟨i, ?_⟩
    unfold fetch at hu
    split at hu
    · rename_i w rest _
      split at hu
      · cases hu; exact ⟨rest, s.draws, h⟩
      · cases hu
    · split at hu
      · cases hu; exact ⟨s.trace, s.draws + 1, h⟩
      · cases hu
  · rename_i w u hu
    refine .inr ⟨w, ?_⟩
    unfold fetch at hu
    split at hu
    · split at hu
      · cases hu
      · cases hu; exact ⟨_, h⟩
    · split at hu <;> cases hu
  · unfold stopQuiescent at h
    split at h <;> cases h

end Sys2Proof.Machine
end

