-- ==== Sys2Proof/Tests/Slice0.lean ====
section
/-! SUPPORT. The model's own tests. Expected results are the spec's: the vectors V<n> of spec/95_test_vectors.md, or a
rule. After them, one named witness for each obligation that has hypotheses. -/
namespace Sys2Proof.Tests
open Sys2Proof.Machine

/-! ## Helpers -/

/-- The next state of an outcome, if there is one. -/
def nextOf (o : Host.Outcome State Fault Refusal) : Option State :=
  match o with
  | .next t => some t
  | .fault _ => none
  | .refused _ => none

/-- A configuration with `C = 4`. -/
def cfg4 : Config := ⟨4, .w16, .everyOrder, by decide, by decide⟩

/-- A configuration with `C = 2`. -/
def cfg2 : Config := ⟨2, .w16, .everyOrder, by decide, by decide⟩

/-- B0 with `C = 4`: the reset state of a run without program. -/
def b0 : State := State.start cfg4 (.nodes []) [0x31, 0x32] []

/-- B1's flags with `C = 4`: INIT and GIE_SET have completed. -/
def b1 : State :=
  { b0 with
    gie := true, rxie := true, inited := true
    m := ⟨2, .idle, some 0, none, none, some 0⟩
    ghost := ⟨[], [], [], [], [0, 0], []⟩
    cmdLog := [0x1000, 0x6000] }

/-- B1 with the mainline in a phase, with an operand byte. -/
def inPhase (p : Phase) (b : Byte) : State := { b1 with m := ⟨3, p, some b, none, none, some 0⟩ }

/-- B1 with one buffered byte to transmit, armed, and the hardware ready or not. -/
def armed (ready : Bool) : State :=
  { b1 with tx := ⟨[(0, 0x42)], 0, 1⟩, txie := true, line := ⟨none, false, some 0x41, ready⟩ }

/-- B1 with a byte waiting in the receive data register. -/
def arrived : State := { b1 with line := ⟨some 0x31, true, none, true⟩, linePos := 1 }

/-! ## WellFormed smoke: an ill-formed word for each check -/

theorem test_opDefined_refuses : (Fields.mk 0x7 0 0).opDefined = false ∧ (Fields.mk 0x7 0 0).wellFormed = false := by
  decide
theorem test_zeroClear_refuses : (Fields.mk 0x1 1 0).zeroClear = false ∧ (Fields.mk 0x1 1 0).wellFormed = false := by
  decide
theorem test_dataClear_refuses : (Fields.mk 0x1 0 1).dataClear = false ∧ (Fields.mk 0x1 0 1).wellFormed = false := by
  decide
theorem test_wellFormed_accepts : (Fields.mk 0x2 0 0xFF).wellFormed = true := by decide

/-! ## Decoding: words written out from the map of R93 (V71 to V80) -/

theorem test_decode_init : decode 0b0001_0000_0000_0000#16 = .ok .init := by decide
theorem test_decode_write : decode 0b0010_0000_0100_0001#16 = .ok (.write 0x41) := by decide
theorem test_decode_read : decode 0b0011_0000_0000_0000#16 = .ok .read := by decide
theorem test_decode_avail : decode 0b0100_0000_0000_0000#16 = .ok .avail := by decide
theorem test_decode_gieClr : decode 0b0101_0000_0000_0000#16 = .ok .gieClr := by decide
theorem test_decode_gieSet : decode 0b0110_0000_0000_0000#16 = .ok .gieSet := by decide
theorem test_decode_isrRx : decode 0b1000_0000_0000_0000#16 = .ok .isrRx := by decide
theorem test_decode_isrTx : decode 0b1001_0000_0000_0000#16 = .ok .isrTx := by decide
theorem test_decode_lineRx : decode 0b1010_0000_0011_0001#16 = .ok (.lineRx 0x31) := by decide
theorem test_decode_lineTx : decode 0b1011_0000_0000_0000#16 = .ok .lineTx := by decide
theorem test_decode_mstep : decode 0b1100_0000_0000_0000#16 = .ok .mstep := by decide
theorem test_decode_stray_data : decode 0x1001#16 = .error .strayData := by decide
theorem test_decode_zero_field : decode 0x2F41#16 = .error .zeroField := by decide
theorem test_decode_reserved_op : decode 0x7000#16 = .error (.reservedOp 0x7) := by decide
theorem test_encode_write : encode (.write 0xFF) = 0x20FF#16 := by decide
theorem test_table_word : decodeTableWord 16 0xA031 = some (.lineRx 0x31) := by decide
theorem test_fetch_word : nextOf (step (b0.withFetchWord 16 0x1000)) = nextOf (exec .init b0) := by decide

/-! ## The written form (R101) -/

theorem test_parse :
    parseProgram "INIT ; WRITE 'A' -- first\nWRITE 66\nLINE_RX 0x31".toList =
      some [.init, .write 0x41, .write 0x42, .lineRx 0x31] := by decide

/-! ## One step of each operation -/

/-- V41, issue: `M.b = 00`, `M.pc = 1`, phase N1. -/
theorem test_init_issue :
    (nextOf (exec .init b0)).map (fun t => (t.m.b, t.m.pc, t.m.phase)) = some (some 0, 1, .n1) := by decide

/-- V42: a second INIT is refused, `M.pc` stays 2. -/
theorem test_init_again :
    (nextOf (exec .init b1)).map (fun t => (t.refused, t.m.pc)) = some (some .reinit, 2) := by decide

/-- V25, issue: `M.b = 41`, `M.pc = 3`, `wr_log = [41]`, phase W1. -/
theorem test_write_issue :
    (nextOf (exec (.write 0x41) b1)).map (fun t => (t.m.b, t.m.pc, t.ghost.wrLog, t.m.phase)) =
      some (some 0x41, 3, [0x41], .w1) := by decide

/-- V43: WRITE before INIT is refused, `wr_log` and `M.b` stay. -/
theorem test_write_before_init :
    (nextOf (exec (.write 0x41) b0)).map (fun t => (t.refused, t.ghost.wrLog, t.m.b)) =
      some (some .beforeInit, [], none) := by decide

/-- V34, issue. -/
theorem test_read_issue : (nextOf (exec .read b1)).map (fun t => (t.m.phase, t.m.pc)) = some (.r1, 3) := by decide

/-- V43: READ before INIT. -/
theorem test_read_before_init : (nextOf (exec .read b0)).map (·.refused) = some (some .beforeInit) := by decide

/-- V35, issue of AVAIL. -/
theorem test_avail_issue : (nextOf (exec .avail b1)).map (fun t => (t.m.phase, t.m.pc)) = some (.a1, 3) := by decide

/-- V43: AVAIL before INIT. -/
theorem test_avail_before_init : (nextOf (exec .avail b0)).map (·.refused) = some (some .beforeInit) := by decide

/-- V44: GIE_CLR is allowed before INIT. -/
theorem test_gieClr_issue : (nextOf (exec .gieClr b0)).map (·.m.phase) = some .k1 := by decide

/-- R214: phase K1 clears `GIE`. -/
theorem test_gieClr_phase :
    (nextOf (exec .mstep (inPhase .k1 0))).map (fun t => (t.gie, t.m.res)) = some (false, some 0) := by decide

/-- V44: GIE_SET is allowed before INIT. -/
theorem test_gieSet_issue : (nextOf (exec .gieSet b0)).map (·.m.phase) = some .s1 := by decide

/-- R213: phase S1 sets `GIE`. -/
theorem test_gieSet_phase :
    (nextOf (exec .mstep { inPhase .s1 0 with gie := false })).map (·.gie) = some true := by decide

/-- V15: the push wraps to slot 0 at `C = 4`. -/
theorem test_isrRx_wraps :
    (nextOf (exec .isrRx { arrived with rx := ⟨[(2, 0x63)], 2, 3⟩ })).map (fun t => (t.rx, t.gie)) =
      some (⟨[(2, 0x63), (3, 0x31)], 2, 0⟩, true) := by decide

/-- V14: a full buffer drops the byte, and the data register is read all the same. -/
theorem test_isrRx_drops :
    (nextOf (exec .isrRx { arrived with rx := ⟨[(0, 0x61), (1, 0x62), (2, 0x63)], 0, 3⟩ })).map
      (fun t => (t.rx.tail, t.line.rxAvail, t.ghost.rxDropped, t.fault)) = some (3, false, [0x31], none) := by decide

/-- V21: the pop wraps, and the transmitter stays armed. -/
theorem test_isrTx_wraps :
    (nextOf (exec .isrTx { armed true with tx := ⟨[(0, 0x35), (3, 0x34)], 3, 1⟩ })).map
      (fun t => (t.tx.head, t.line.txData, t.line.txReady, t.txie)) = some (0, some 0x34, false, true) := by decide

/-- V19: the pop that empties `TX` disarms. -/
theorem test_isrTx_disarms :
    (nextOf (exec .isrTx (armed true))).map (fun t => (t.tx.head, t.txie, t.gie)) = some (1, false, true) := by decide

/-- V65: an arriving byte. -/
theorem test_lineRx_arrives :
    (nextOf (exec (.lineRx 0x31) b1)).map (fun t => (t.line.rxData, t.line.rxAvail)) =
      some (some 0x31, true) := by decide

/-- V66: an overrun keeps the older byte. -/
theorem test_lineRx_overruns :
    (nextOf (exec (.lineRx 0x32) { arrived with gie := false })).map (fun t => (t.line.rxData, t.ghost.rxHwLost)) =
      some (some 0x31, [0x32]) := by decide

/-- V68: the byte leaves and the register keeps it. -/
theorem test_lineTx_departs :
    (nextOf (exec .lineTx (armed false))).map (fun t => (t.ghost.lineOut, t.line.txReady, t.line.txData)) =
      some ([0x41], true, some 0x41) := by decide

/-- V69: LINE_TX is not enabled while the hardware is ready. -/
theorem test_lineTx_not_enabled : exec .lineTx b1 = .refused (.notEnabled .line) := by rfl

/-- V90: the guard restores `GIE`, it does not set it. -/
theorem test_mstep_commit_restores_gie :
    (nextOf (exec .mstep { inPhase .w4 0x42 with gie := false, m := ⟨3, .w4, some 0x42, some 1, none, none⟩ })).map
      (fun t => (t.gie, t.tx.tail, t.txie)) = some (false, 1, true) := by decide

/-- V36: a READ of FF responds 00FF, which is not `NONE`. -/
theorem test_mstep_delivers_ff :
    (nextOf (exec .mstep { inPhase .r3 0 with rx := ⟨[(3, 0xFF)], 3, 0⟩, m := ⟨3, .r3, some 0, none, some 0xFF, none⟩ })).map
      (fun t => (t.m.res, t.rx.head)) = some (some 0x00FF, 0) := by decide

/-- V23: an empty pop records the head and discards the handler entry's write. -/
theorem test_empty_pop :
    (nextOf (exec .isrTx { armed true with tx := ⟨[], 3, 3⟩ })).map (fun t => (t.fault, t.gie, t.line.txReady)) =
      some (some (.txEmptyPop 3), true, true) := by decide

/-! ## Formatted output (V45, V46, V50, V54, V61) -/

theorem test_float_pads : floatBytes cfg4 (.finite (-5 / 1000)) 2 = .ok [0x2D, 0x30, 0x2E, 0x30, 0x30] := by
  decide +kernel
theorem test_float_truncates : floatBytes cfg4 (.finite (314159 / 100000)) 2 = .ok [0x33, 0x2E, 0x31, 0x34] := by
  decide +kernel
theorem test_float_left_pads : floatBytes cfg4 (.finite (65 / 32)) 2 = .ok [0x32, 0x2E, 0x30, 0x33] := by
  decide +kernel
theorem test_int_minimum : intBytes cfg4 (-32768) = .ok [0x2D, 0x33, 0x32, 0x37, 0x36, 0x38] := by decide
theorem test_int_refused : intBytes cfg4 32768 = .error .operand := by decide

/-! ## Witnesses: concrete states that meet each obligation's hypotheses together -/

theorem witness_PortRefusesReservedWordsAndLabels :
    cmdReady b1 = true ∧ reservedWord 0x7000 = true ∧ reservedWord 0x1001 = true ∧ reservedWord 0x2141 = true ∧
      (∃ i, decode 0xA031 = .ok i ∧ isCommand i = false) ∧ isCommand .gieSet = true :=
  ⟨by decide, by decide, by decide, by decide, ⟨.lineRx 0x31, by decide, rfl⟩, rfl⟩

/-- R270, R47 (log 25): a reset clears the marks and the enables, and leaves the input and the count of free choices. -/
theorem test_second_reset :
    let s := assertReset { b1 with fault := some (.txEmptyPop 0), draws := 7 }
    s.fault = none ∧ s.inited = false ∧ s.lineIn = [0x31, 0x32] ∧ s.draws = 7 := by decide

theorem witness_ParametersFollowTheConfiguration :
    cfg4.intw = .w16 ∧ { cfg4 with intw := .w32 }.intw = .w32 := ⟨rfl, rfl⟩

theorem witness_StepRunsTheScheduledWord :
    { b0 with trace := [0x1000] }.trace = 0x1000 :: [] ∧ decode 0x1000 = .ok .init ∧
      { b0 with trace := [0x7000, 0x1000] }.trace = 0x7000 :: [0x1000] ∧ decode 0x7000 = .error (.reservedOp 7) := by
  decide

theorem witness_FreeScheduleTakesAnEnabledLabel :
    b1.trace = [] ∧ quiescent b1 = false ∧ b1.cfg.irqOrder = .everyOrder ∧
      State.reset.trace = [] ∧ quiescent State.reset = true ∧ State.reset.fault = none := by decide

theorem witness_StepsRunExactlyWhenEnabled : IndicesLegal b1 := by unfold IndicesLegal; decide

/-- B0 and B1 under a program of one command word. -/
def issuing (s : State) (w : Word) : State := { s with program := straightWords [w], ghost := { s.ghost with respLog := [] } }

theorem witness_CommandIssue :
    (∀ w, (issuing b0 w).m.phase = .idle ∧ (issuing b0 w).fault = none ∧ (issuing b0 w).refused = none ∧
      nextChoice (issuing b0 w) = .command w) ∧
    (∀ w, (issuing b1 w).m.phase = .idle ∧ (issuing b1 w).fault = none ∧ (issuing b1 w).refused = none ∧
      nextChoice (issuing b1 w) = .command w) ∧
    nextChoice b0 = .halt ∧
    (∀ s ∈ [{ b0 with program := straightLine [.refuseOperand] },
            { b1 with program := straightLine [.command 0x1000, .command 0x6000, .refuseOperand] }],
      s.m.phase = .idle ∧ s.fault = none ∧ s.refused = none ∧ nextChoice s = .refuseOperand) :=
  ⟨fun _ => ⟨rfl, rfl, rfl, rfl⟩, fun _ => ⟨rfl, rfl, rfl, rfl⟩, rfl, by decide⟩

/-- R10: a program that is any function of the responses, here one of which nothing is known but its first answer. -/
theorem test_free_program_issues {n : Nat} (h : Config.freeProgram n [] = .command 0x1000) :
    ∃ t, exec .mstep (State.start cfg4 (.free n) [] []) = .next t ∧ t.m.phase = .n1 ∧ t.m.pc = 1 := by
  have hn : nextChoice (State.start cfg4 (.free n) [] []) = .command 0x1000 := h
  refine ⟨_, exec_mstep_idle rfl rfl (by simp [hn]), ?_⟩
  rw [issueNext, hn]
  exact ⟨rfl, rfl⟩

theorem witness_CommandsAreLatched :
    cmdReady b0 = true ∧ b0.inited = false ∧ cmdReady b1 = true ∧ b1.inited = true := by decide

theorem witness_CommandsOutOfPlaceAreRefused :
    cmdReady b0 = true ∧ b0.inited = false ∧ cmdReady b1 = true ∧ b1.inited = true := by decide

theorem witness_SinglePhaseCommandsComplete :
    (∀ p ∈ [Phase.n1, .s1, .k1, .a1], unmarked (inPhase p 0) = true ∧ (inPhase p 0).m.phase = p) := by decide
theorem witness_GieSetCompletes : cmdReady b0 = true ∧ cmdReady b1 = true := by decide
theorem witness_GieClrCompletes : cmdReady b0 = true ∧ cmdReady b1 = true := by decide

theorem witness_WriteFastPathTest :
    (∀ s ∈ [inPhase .w1 0x41, { armed true with m := (inPhase .w1 0x41).m }],
      s.m.phase = .w1 ∧ unmarked s = true ∧ s.m.b = some 0x41) ∧
    ((inPhase .w1 0x41).tx.head = (inPhase .w1 0x41).tx.tail ∧ (inPhase .w1 0x41).line.txReady = true) ∧
    ¬ ((armed true).tx.head = (armed true).tx.tail ∧ (armed true).line.txReady = true) ∧
    ArmedIffNonEmpty (inPhase .w1 0x41) := by
  refine ⟨by decide, by decide, by decide, ?_⟩
  unfold ArmedIffNonEmpty
  decide

/-- A mainline in W2 on a full transmit buffer of capacity 2, a byte in flight. -/
def spinning : State :=
  { b1 with
    cfg := cfg2
    tx := ⟨[(0, 0x42)], 0, 1⟩, txie := true, line := ⟨none, false, some 0x41, false⟩
    m := ⟨5, .w2, some 0x43, some 0, none, some 1⟩
    ghost := ⟨[], [], [], [], [0, 0, 1, 1], [0x41, 0x42, 0x43]⟩
    cmdLog := [0x1000, 0x6000, 0x2041, 0x2042, 0x2043] }

theorem witness_WriteSpinTest :
    spinning.m.phase = .w2 ∧ unmarked spinning = true ∧
      (spinning.tx.tail + 1) % spinning.cfg.capacity = spinning.tx.head ∧
    (inPhase .w2 0x41).m.phase = .w2 ∧ unmarked (inPhase .w2 0x41) = true ∧
      ((inPhase .w2 0x41).tx.tail + 1) % (inPhase .w2 0x41).cfg.capacity ≠ (inPhase .w2 0x41).tx.head := by decide

theorem witness_WriteStores :
    (∀ s ∈ [inPhase .w3 0x41, { inPhase .w3 0x41 with tx := ⟨[(2, 0x39)], 2, 3⟩ }],
      s.m.phase = .w3 ∧ unmarked s = true ∧ s.m.b = some 0x41 ∧ s.tx.tail < s.cfg.capacity ∧
        s.tx.head < s.cfg.capacity) := by decide

/-- The commit of the buffered byte 42. -/
def committing : State := { inPhase .w4 0x42 with m := ⟨3, .w4, some 0x42, some 1, none, some 0⟩, tx := ⟨[(0, 0x42)], 0, 0⟩ }

theorem witness_WriteCommits :
    committing.m.phase = .w4 ∧ unmarked committing = true ∧ committing.m.nt = some 1 ∧ committing.gie = true ∧
      committing.line.txReady = true ∧ CandidateSound committing := by
  refine ⟨rfl, rfl, rfl, rfl, rfl, ?_⟩
  unfold CandidateSound
  decide

theorem witness_WriteCompletesFast :
    cmdReady b1 = true ∧ b1.inited = true ∧ b1.tx.head = b1.tx.tail ∧ b1.line.txReady = true := by decide

/-- V28: the slot is the last one, and the tail wraps. -/
theorem witness_WriteCompletesBuffered :
    (∀ s ∈ [armed false, { armed false with tx := ⟨[(2, 0x39)], 2, 3⟩ }, { armed false with tx := ⟨[], 0, 0⟩ }],
      cmdReady s = true ∧ s.inited = true ∧ s.tx.tail < s.cfg.capacity ∧
        ¬ (s.tx.head = s.tx.tail ∧ s.line.txReady = true) ∧ (s.tx.tail + 1) % s.cfg.capacity ≠ s.tx.head) := by decide

theorem witness_WriteHangsWithInterruptsOff :
    { spinning with gie := false }.m.phase = .w2 ∧ { spinning with gie := false }.gie = false ∧
      (spinning.tx.tail + 1) % spinning.cfg.capacity = spinning.tx.head ∧
      nextOf (runTrace [.lineTx, .mstep] { spinning with gie := false }) ≠ none := by decide

theorem spinning_working : Working spinning := by
  refine ⟨⟨rfl, ?_, ?_, ?_, ?_, ?_, rfl, ?_, rfl, rfl⟩, ⟨rfl, rfl, .write 0x43, rfl, rfl, rfl, rfl⟩, ?_, ?_, ?_, ?_⟩
  · unfold IndicesLegal; decide
  · unfold ArmedIffNonEmpty; decide
  · unfold CandidateSound; decide
  · unfold CountsBounded; decide
  · unfold ValuesPresent; decide
  · unfold QuietBeforeInit; decide
  · unfold StoredBeforePublish; decide
  · unfold ReadInProgress; decide
  · decide
  · decide

theorem witness_SpinIsReleasedByTheHandler :
    Working spinning ∧ spinning.m.phase = .w2 ∧ spinning.refused = none ∧ spinning.gie = true ∧
      spinning.line.txReady = false ∧ (spinning.tx.tail + 1) % spinning.cfg.capacity = spinning.tx.head :=
  ⟨spinning_working, rfl, rfl, rfl, rfl, rfl⟩

/-- A WRITE in W1 that takes the fast path. -/
def writing0 : State :=
  { inPhase .w1 0x41 with ghost := ⟨[], [], [], [], [0, 0], [0x41]⟩, cmdLog := [0x1000, 0x6000, 0x2041], lineIn := [] }

/-- The same WRITE completed, its byte in flight. -/
def writing1 : State :=
  { writing0 with
    line := ⟨none, false, some 0x41, false⟩
    m := ⟨3, .idle, some 0x41, none, none, some 1⟩
    ghost := ⟨[], [], [], [], [0, 0, 1], [0x41]⟩ }

/-- Its byte sent: a quiescent state. -/
def writing2 : State :=
  { writing1 with line := ⟨none, false, some 0x41, true⟩, ghost := ⟨[0x41], [], [], [], [0, 0, 1], [0x41]⟩ }

/-- The run through these three states, quiescent for ever after. -/
def fairRun (n : Nat) : State :=
  match n with
  | 0 => writing0
  | 1 => writing1
  | _ + 2 => writing2

/-- The steps of that run. -/
def fairSteps (n : Nat) : Instr :=
  match n with
  | 0 => .mstep
  | _ + 1 => .lineTx

theorem writing0_working : Working writing0 := by
  refine ⟨⟨rfl, ?_, ?_, ?_, ?_, ?_, rfl, ?_, rfl, rfl⟩, ⟨rfl, rfl, .write 0x41, rfl, rfl, rfl, rfl⟩, ?_, ?_, ?_, ?_⟩
  · unfold IndicesLegal; decide
  · unfold ArmedIffNonEmpty; decide
  · unfold CandidateSound; decide
  · unfold CountsBounded; decide
  · unfold ValuesPresent; decide
  · unfold QuietBeforeInit; decide
  · unfold StoredBeforePublish; decide
  · unfold ReadInProgress; decide
  · decide
  · decide

theorem fairRun_isRun : IsRun fairRun fairSteps := by
  intro n
  match n with
  | 0 => exact .inl rfl
  | 1 => exact .inl rfl
  | _ + 2 => exact .inr ⟨rfl, rfl⟩

/-- A label that is not enabled in the last state is treated fairly. -/
theorem fair_of_disabled {i : Instr} (h : enabled i writing2 = false) : WeaklyFair i fairRun fairSteps := by
  intro n hn
  have h2 : enabled i writing2 = true := hn (n + 2) (Nat.le_add_right n 2)
  rw [h] at h2
  cases h2

theorem witness_FairRunsCompleteEveryWrite :
    IsRun fairRun fairSteps ∧ Fair fairRun fairSteps ∧ Working (fairRun 0) ∧ (∀ n, (fairRun n).gie = true) ∧
      writing (fairRun 0).m.phase = true := by
  refine ⟨fairRun_isRun, ⟨fair_of_disabled rfl, fair_of_disabled rfl, fair_of_disabled rfl, fair_of_disabled rfl⟩,
    writing0_working, fun n => ?_, rfl⟩
  match n with
  | 0 => rfl
  | 1 => rfl
  | _ + 2 => rfl

/-- A READ past its empty test, one byte buffered and another waiting. -/
def reading : State :=
  { inPhase .r2 0 with
    rx := ⟨[(0, 0x31)], 0, 1⟩, line := ⟨some 0x32, true, none, true⟩, linePos := 2
    ghost := ⟨[], [0x31], [], [], [0, 0], []⟩
    cmdLog := [0x1000, 0x6000, 0x3000] }

theorem reading_working : Working reading := by
  refine ⟨⟨rfl, ?_, ?_, ?_, ?_, ?_, rfl, ?_, rfl, rfl⟩, ⟨rfl, rfl, .read, rfl, rfl, rfl, rfl⟩, ?_, ?_, ?_, ?_⟩
  · unfold IndicesLegal; decide
  · unfold ArmedIffNonEmpty; decide
  · unfold CandidateSound; decide
  · unfold CountsBounded; decide
  · unfold ValuesPresent; decide
  · unfold QuietBeforeInit; decide
  · unfold StoredBeforePublish; decide
  · unfold ReadInProgress; decide
  · decide
  · decide

theorem witness_ReadTestsAndLatches :
    ((inPhase .r1 0).m.phase = .r1 ∧ unmarked (inPhase .r1 0) = true ∧ (inPhase .r1 0).rx.head = (inPhase .r1 0).rx.tail) ∧
    { reading with m := (inPhase .r1 0).m }.m.phase = .r1 ∧ reading.rx.head ≠ reading.rx.tail ∧
    (reading.m.phase = .r2 ∧ unmarked reading = true ∧ reading.rx.head < reading.cfg.capacity ∧
      Memory.lookup reading.rx.buf reading.rx.head = some 0x31) ∧
    Working reading ∧
    nextOf (exec .isrRx reading) ≠ none :=
  ⟨by decide, rfl, by decide, ⟨rfl, rfl, by decide, rfl⟩, reading_working, by decide⟩

/-- V37: the head is the last slot. -/
def delivering : State := { reading with rx := ⟨[(3, 0x31)], 3, 0⟩, m := ⟨3, .r3, some 0, none, some 0x31, some 0⟩ }

theorem witness_ReadDeliversTheByte :
    delivering.m.phase = .r3 ∧ unmarked delivering = true ∧ delivering.m.v = some 0x31 := by decide

theorem witness_ReadCompletes :
    cmdReady b1 = true ∧ b1.inited = true ∧ b1.rx.head = b1.rx.tail ∧
    (∀ s ∈ [{ b1 with rx := ⟨[(0, 0x31)], 0, 1⟩ }, { b1 with rx := ⟨[(3, 0x31)], 3, 0⟩ }],
      cmdReady s = true ∧ s.inited = true ∧ s.rx.head ≠ s.rx.tail ∧ s.rx.head < s.cfg.capacity ∧
        Memory.lookup s.rx.buf s.rx.head = some 0x31) := by decide

theorem witness_AvailCompletes :
    (∀ s ∈ [b1, { b1 with rx := ⟨[], 3, 1⟩ }, { b1 with rx := ⟨[], 1, 3⟩ }], cmdReady s = true ∧ s.inited = true) := by
  decide

theorem witness_ReceiveHandler :
    (∀ s ∈ [arrived, { arrived with rx := ⟨[], 2, 3⟩ }],
      s.fault = none ∧ s.gie = true ∧ s.rxie = true ∧ s.line.rxAvail = true ∧ s.line.rxData = some 0x31 ∧
        s.rx.tail < s.cfg.capacity ∧ (s.rx.tail + 1) % s.cfg.capacity ≠ s.rx.head) ∧
    (∀ s ∈ [{ arrived with rx := ⟨[], 0, 3⟩ }, { arrived with rx := ⟨[], 3, 2⟩ }],
      s.fault = none ∧ s.gie = true ∧ s.rxie = true ∧ s.line.rxAvail = true ∧ s.line.rxData = some 0x31 ∧
        s.rx.tail < s.cfg.capacity ∧ (s.rx.tail + 1) % s.cfg.capacity = s.rx.head) := by decide

theorem witness_TransmitHandler :
    (∀ s ∈ [armed true, { armed true with tx := ⟨[(3, 0x42)], 3, 1⟩ }],
      s.fault = none ∧ s.gie = true ∧ s.txie = true ∧ s.line.txReady = true ∧ s.tx.head ≠ s.tx.tail ∧
        s.tx.head < s.cfg.capacity ∧ Memory.lookup s.tx.buf s.tx.head = some 0x42) := by decide

/-- V23's state: armed with an empty buffer, which no run reaches. -/
def emptyArmed : State := { armed true with tx := ⟨[], 3, 3⟩ }

theorem witness_EmptyPopFaults :
    emptyArmed.fault = none ∧ emptyArmed.gie = true ∧ emptyArmed.txie = true ∧ emptyArmed.line.txReady = true ∧
      emptyArmed.tx.head = emptyArmed.tx.tail := by decide

/-- V85: both requests pending. -/
def bothPending : State :=
  { b1 with
    tx := ⟨[(0, 0x42)], 0, 1⟩, txie := true, line := ⟨some 0x31, true, some 0x41, true⟩, linePos := 1
    m := ⟨4, .idle, some 0x42, some 1, none, some 1⟩
    ghost := ⟨[0x41], [], [], [], [0, 0, 1, 1], [0x41, 0x42]⟩
    cmdLog := [0x1000, 0x6000, 0x2041, 0x2042] }

theorem bothPending_working : Working bothPending := by
  refine ⟨⟨rfl, ?_, ?_, ?_, ?_, ?_, rfl, ?_, rfl, rfl⟩, ⟨rfl, rfl⟩, ?_, ?_, ?_, ?_⟩
  · unfold IndicesLegal; decide
  · unfold ArmedIffNonEmpty; decide
  · unfold CandidateSound; decide
  · unfold CountsBounded; decide
  · unfold ValuesPresent; decide
  · unfold QuietBeforeInit; decide
  · unfold StoredBeforePublish; decide
  · unfold ReadInProgress; decide
  · decide
  · decide

theorem witness_HandlersCommute :
    Working bothPending ∧ enabled .isrRx bothPending = true ∧ enabled .isrTx bothPending = true :=
  ⟨bothPending_working, rfl, rfl⟩

theorem witness_LineReceivesOrOverruns :
    (b1.inited = true ∧ b1.fault = none ∧ b1.lineIn[b1.linePos]? = some 0x31 ∧ b1.line.rxAvail = false ∧ b1.rxie = true) ∧
    (arrived.inited = true ∧ arrived.fault = none ∧ arrived.lineIn[arrived.linePos]? = some 0x32 ∧
      arrived.line.rxAvail = true) ∧
    (b0.fault = none ∧ b0.inited = false ∧ b1.lineIn[b1.linePos]? ≠ some 0x32) := by decide

theorem witness_LineTransmits :
    ((armed false).fault = none ∧ (armed false).line.txReady = false ∧ (armed false).line.txData = some 0x41 ∧
      (armed false).txie = true) ∧
    (b1.fault = none ∧ b1.line.txReady = true) := by decide

theorem witness_CommandFrame :
    (∀ i ∈ [Instr.init, .write 0x41, .read, .avail, .gieClr, .gieSet], isCommand i = true ∧
      nextOf (exec i b0) ≠ none ∧ nextOf (exec i b1) ≠ none) ∧
    (nextOf (exec .init b1)).map (·.refused) = some (some .reinit) ∧
    (∀ d, Instr.init ≠ .write d) := by
  refine ⟨by decide, by decide, fun d => ?_⟩
  simp

theorem witness_MainlineFrame :
    (∀ s ∈ [issuing b1 0x2041, inPhase .n1 0, inPhase .w1 0x41, spinning, inPhase .w3 0x41, committing, inPhase .r1 0,
        reading, delivering, inPhase .a1 0, inPhase .s1 0, inPhase .k1 0],
      nextOf (exec .mstep s) ≠ none) ∧
    (∀ s ∈ [{ armed true with m := (inPhase .w1 0x41).m }, { reading with m := (inPhase .r1 0).m }],
      nextOf (exec .mstep s) ≠ none ∧ ¬ (s.tx.head = s.tx.tail ∧ s.rx.head = s.rx.tail)) := by decide

theorem witness_ReceiveHandlerFrame : nextOf (exec .isrRx arrived) ≠ none := by decide
theorem witness_TransmitHandlerFrame : nextOf (exec .isrTx (armed true)) ≠ none := by decide

theorem witness_LineFrame :
    nextOf (exec (.lineRx 0x31) b1) ≠ none ∧ nextOf (exec .lineTx (armed false)) ≠ none := by decide

/-- Each index and `TXIE` do move in the owner's step. -/
theorem witness_OnlyOwnersMoveIndices :
    ((nextOf (exec .isrRx arrived)).map (·.rx.tail) = some 1) ∧
    ((nextOf (exec .mstep delivering)).map (·.rx.head) = some 0) ∧
    ((nextOf (exec .mstep committing)).map (fun t => (t.tx.tail, t.txie)) = some (1, true)) ∧
    ((nextOf (exec .isrTx (armed true))).map (fun t => (t.tx.head, t.txie)) = some (1, false)) := by decide

theorem witness_EnablesChangeOnlyByTheirCommands :
    ((nextOf (exec .mstep (inPhase .k1 0))).map (·.gie) = some false) ∧
    ((nextOf (exec .mstep { inPhase .s1 0 with gie := false })).map (·.gie) = some true) ∧
    ((nextOf (exec .gieSet b1)).map (·.m.pc) = some 3) := by decide

/-- A faulted state. -/
def faulted : State := { emptyArmed with fault := some (.txEmptyPop 3) }

theorem witness_FaultStopsEveryAgent : faulted.fault = some (.txEmptyPop 3) := rfl

theorem witness_FaultDiscardsEveryWrite : exec .isrTx emptyArmed = .next faulted ∧ faulted.fault ≠ none :=
  ⟨rfl, by decide⟩

/-- V89: the mainline refused, a byte in flight. -/
def refusedState : State := { armed false with refused := some .reserved }

theorem witness_RefusalStopsOnlyTheMainline :
    refusedState.refused = some .reserved ∧ nextOf (exec .lineTx refusedState) ≠ none ∧
      exec .mstep refusedState = .refused (.stopped .reserved) ∧ Instr.lineTx ≠ .mstep ∧ isCommand .lineTx = false :=
  ⟨rfl, by decide, rfl, by decide, rfl⟩

/-- Both buffers with these contents. -/
def rings (r : Machine.Ring) : State := { b1 with rx := r, tx := r }

theorem witness_PushAndPopActOnTheContent :
    (∀ sp ∈ [Space.rxbuf, .txbuf], ∀ r ∈ [Machine.Ring.mk [(0, 1), (1, 2), (3, 4)] 3 2, ⟨[(3, 4)], 3, 0⟩, ⟨[], 3, 3⟩],
      (ringOf sp (rings r)).head < (rings r).cfg.capacity ∧ (ringOf sp (rings r)).tail < (rings r).cfg.capacity ∧
        (∀ i ∈ occupied (rings r).cfg.capacity (ringOf sp (rings r)),
          (Memory.lookup (ringOf sp (rings r)).buf i).isSome = true)) ∧
    count .rxbuf (rings ⟨[(0, 1), (1, 2), (3, 4)], 3, 2⟩) = 4 - 1 ∧ count .rxbuf (rings ⟨[(3, 4)], 3, 0⟩) = 1 ∧
    count .rxbuf (rings ⟨[], 3, 3⟩) = 0 := by decide

theorem witness_FreshBufferIsFirstInFirstOut :
    ringOf .rxbuf b1 = ⟨[], 0, 0⟩ ∧ ([1, 2, 3] : List Byte).length ≤ b1.cfg.capacity - 1 := by decide

/-- The spinning state with the next steps of its schedule placed. -/
def scheduled (s : State) (w : Word) : State := { s with trace := [w] }

theorem scheduled_working {s : State} (h : Working s) (w : Word) : Working (scheduled s w) :=
  ⟨⟨h.inv.noFault, h.inv.indices, h.inv.armed, h.inv.candidate, h.inv.counts, h.inv.present, h.inv.rxieInited,
    h.inv.quiet, h.inv.transmitOrder, h.inv.receiveOrder⟩, h.logs, h.stored, h.reading, h.refusedIdle, h.beforeInit⟩

theorem witness_EveryStepKeepsTheInvariants :
    Working (scheduled bothPending 0x9000) ∧ ∃ t, step (scheduled bothPending 0x9000) = .next t :=
  ⟨scheduled_working bothPending_working _, _, rfl⟩

theorem witness_EveryStepKeepsTheInputAccount :
    InputAccounted (scheduled bothPending 0x8000) ∧ ∃ t, step (scheduled bothPending 0x8000) = .next t := by
  refine ⟨⟨rfl, by decide, ?_⟩, _, rfl⟩
  decide

theorem witness_EveryStepKeepsStorageCanonical :
    StorageCanonical (scheduled bothPending 0x8000) ∧ ∃ t, step (scheduled bothPending 0x8000) = .next t := by
  refine ⟨?_, _, rfl⟩
  unfold StorageCanonical
  decide

theorem witness_NoFaultIsReachable :
    ∃ t, Host.Core.run core 2 (State.start cfg4 (.nodes []) [0x31] [0x1000, 0xC000]) = .next t := ⟨_, rfl⟩

/-- The sent state of the run above: a final state in which a byte has been written. -/
theorem writing2_working : Working writing2 := by
  refine ⟨⟨rfl, ?_, ?_, ?_, ?_, ?_, rfl, ?_, rfl, rfl⟩, ⟨rfl, rfl⟩, ?_, ?_, ?_, ?_⟩
  · unfold IndicesLegal; decide
  · unfold ArmedIffNonEmpty; decide
  · unfold CandidateSound; decide
  · unfold CountsBounded; decide
  · unfold ValuesPresent; decide
  · unfold QuietBeforeInit; decide
  · unfold StoredBeforePublish; decide
  · unfold ReadInProgress; decide
  · decide
  · decide

theorem witness_FinalStatesHaveSentEverything :
    Working writing2 ∧ final writing2 = true ∧ writing2.ghost.wrLog = [0x41] := ⟨writing2_working, rfl, rfl⟩

theorem witness_BufferedBytesStayUntilRead :
    Working bothPending ∧ nextOf (exec .isrRx bothPending) ≠ none ∧ Working reading ∧ nextOf (exec .mstep reading) ≠ none ∧
      ¬ (Instr.mstep = .mstep ∧ reading.m.phase = .r3) := by
  refine ⟨bothPending_working, by decide, reading_working, by decide, by decide⟩

theorem witness_IntegerTextFitsTheScratchBuffer :
    (∀ v ∈ [(-32768 : Int), 0, 32767], intMin cfg4 ≤ v ∧ v ≤ intMax cfg4) ∧
    (∀ v ∈ [(-32769 : Int), 32768], ¬ (intMin cfg4 ≤ v ∧ v ≤ intMax cfg4)) ∧
    cfg4.intw = .w16 ∧ { cfg4 with intw := .w32 }.intw = .w32 := by decide

theorem witness_FloatTextIsTruncatedAndPadded :
    (∀ p ∈ [0, 4], p ≤ pmax cfg4) ∧ (⌊|(-32767 : Rat)|⌋ : Int) ≤ intMax cfg4 ∧
    (∀ q, FloatOperand.nan = .finite q → (0 > pmax cfg4 ∨ (⌊|q|⌋ : Int) > intMax cfg4)) ∧
    (∀ q, FloatOperand.finite 0 = .finite q → (5 > pmax cfg4 ∨ (⌊|q|⌋ : Int) > intMax cfg4)) ∧
    (∀ q, FloatOperand.finite 32768 = .finite q → (0 > pmax cfg4 ∨ (⌊|q|⌋ : Int) > intMax cfg4)) := by
  refine ⟨by decide, by norm_num [intMax, intBits, cfg4], fun q h => ?_, fun q _ => Or.inl (by decide), fun q h => ?_⟩
  · cases h
  · cases h
    exact Or.inr (by norm_num [intMax, intBits, cfg4])

/-- INIT, then a pseudo-operation: the state after INIT, with one response. -/
def initialised (op : PseudoOp) : State :=
  { b1 with
    program := compileProgram cfg4 [.command 0x1000, .pseudo op, .command 0x6000]
    m := ⟨1, .idle, some 0, none, none, some 0⟩
    ghost := ⟨[], [], [], [], [0], []⟩
    cmdLog := [0x1000] }

/-- The witness for each clause: a byte of the expansion, the statement after it and the one before it, and the
refusal after INIT. -/
theorem witness_PseudoOperationsExpandToWrites :
    pseudoBytes cfg4 (.writeInt (-42)) = .ok [0x2D, 0x34, 0x32] ∧
    ([0x2D, 0x34, 0x32] : List Byte)[2]? = some 0x32 ∧ ([0, 1, 1] : List Word).length = 1 + 2 ∧
    1 ≤ ([0] : List Word).length ∧ ([0, 1, 1, 1] : List Word).length = ([0] : List Word).length + 3 ∧
    ([] : List Word).length < 1 ∧
    pseudoBytes cfg4 (.writeInt 32768) = .error .operand ∧
    cmdReady (initialised (.writeInt 32768)) = true ∧ (initialised (.writeInt 32768)).ghost.respLog.length = 1 := by
  decide

end Sys2Proof.Tests
end

/-! The derived parameters of a configuration (spec/10_state.md R10, R22; spec/45_formatted_output.md R193, R202). -/
namespace Sys2Proof.Machine

/-- The lower bound of R10's formula never applies: the logarithm alone already gives a width of at least 1. -/
theorem indexWidth_eq_log2_succ (cfg : Config) : indexWidth cfg = Nat.log2 (cfg.capacity - 1) + 1 :=
  max_eq_right (Nat.le_add_left 1 _)

theorem one_le_indexWidth (cfg : Config) : 1 ≤ indexWidth cfg :=
  le_max_left 1 _

theorem capacity_le_two_pow_indexWidth (cfg : Config) : cfg.capacity ≤ 2 ^ indexWidth cfg := by
  have hlast : cfg.capacity - 1 < 2 ^ indexWidth cfg := by
    rw [indexWidth_eq_log2_succ]
    exact Nat.lt_log2_self
  omega

/-- One bit less does not hold the greatest index. -/
theorem two_pow_indexWidth_pred_lt_capacity (cfg : Config) : 2 ^ (indexWidth cfg - 1) < cfg.capacity := by
  have hge := cfg.capacity_ge
  have hlast : 2 ^ (indexWidth cfg - 1) ≤ cfg.capacity - 1 := by
    rw [indexWidth_eq_log2_succ, Nat.add_sub_cancel]
    exact Nat.log2_self_le (by omega)
  omega

/-- An index fits one byte (R65): the greatest is at most 255. -/
theorem indexWidth_le_eight (cfg : Config) : indexWidth cfg ≤ 8 := by
  have hge := cfg.capacity_ge
  have hle := cfg.capacity_le
  have hlog : Nat.log2 (cfg.capacity - 1) < 8 := (Nat.log2_lt (by omega)).2 (by omega)
  rw [indexWidth_eq_log2_succ]
  omega

theorem intBits_of_w16 {cfg : Config} (h : cfg.intw = .w16) : intBits cfg = 16 := by
  simp [intBits, h]

theorem intBits_of_w32 {cfg : Config} (h : cfg.intw = .w32) : intBits cfg = 32 := by
  simp [intBits, h]

theorem pmax_of_w16 {cfg : Config} (h : cfg.intw = .w16) : pmax cfg = 4 := by
  simp [pmax, h]

theorem pmax_of_w32 {cfg : Config} (h : cfg.intw = .w32) : pmax cfg = 9 := by
  simp [pmax, h]

theorem intMin_eq_neg_two_pow (cfg : Config) : intMin cfg = -(2 : Int) ^ (intBits cfg - 1) := by
  simp [intMin]

/-- The subtraction of naturals in `intMax` does not truncate. -/
theorem intMax_eq_two_pow_sub_one (cfg : Config) : intMax cfg = (2 : Int) ^ (intBits cfg - 1) - 1 := by
  simp [intMax, Nat.cast_sub Nat.one_le_two_pow]

/-- R202: `pmax` digits of fraction fit an `INTW`-bit signed integer, and one digit more does not. -/
theorem pmax_is_greatest_fitting (cfg : Config) :
    (10 : Int) ^ pmax cfg - 1 ≤ intMax cfg ∧ intMax cfg < (10 : Int) ^ (pmax cfg + 1) - 1 := by
  rw [intMax_eq_two_pow_sub_one]
  cases h : cfg.intw with
  | w16 => norm_num [intBits_of_w16 h, pmax_of_w16 h]
  | w32 => norm_num [intBits_of_w32 h, pmax_of_w32 h]

/-- Settles O6, from the bounds of the logarithm for `IW` and one case per `INTW` for `PMAX`. -/
theorem parametersFollowTheConfiguration : Obligations.ParametersFollowTheConfiguration := fun cfg =>
  ⟨capacity_le_two_pow_indexWidth cfg, two_pow_indexWidth_pred_lt_capacity cfg, one_le_indexWidth cfg,
    indexWidth_le_eight cfg, intBits_of_w16, intBits_of_w32, intMin_eq_neg_two_pow cfg,
    intMax_eq_two_pow_sub_one cfg, pmax_is_greatest_fitting cfg⟩

end Sys2Proof.Machine

/-! Command issue as a frame (spec/30_encoding.md R96, "Issue touches no shared state"), and the mainline's steps that
complete no command (R100). -/
namespace Sys2Proof.Machine

section Issue
variable (w : Word) (s : State)

/-- Refused or accepted, issue writes only the sequencer with its operand latch and index, the mark, `wr_log` and the
model's command log. -/
theorem issue_frame : issue w s = { s with
    m := { s.m with b := (issue w s).m.b, pc := (issue w s).m.pc, phase := (issue w s).m.phase }
    refused := (issue w s).refused
    ghost := { s.ghost with wrLog := (issue w s).ghost.wrLog }
    cmdLog := (issue w s).cmdLog } := by
  rcases issue_cases w s with ⟨r, -, h⟩ | ⟨p, -, h⟩
  · rw [h]; rfl
  · rw [h]; rfl

@[simp] theorem issue_rx : (issue w s).rx = s.rx := by rw [issue_frame]
@[simp] theorem issue_tx : (issue w s).tx = s.tx := by rw [issue_frame]
@[simp] theorem issue_gie : (issue w s).gie = s.gie := by rw [issue_frame]
@[simp] theorem issue_rxie : (issue w s).rxie = s.rxie := by rw [issue_frame]
@[simp] theorem issue_txie : (issue w s).txie = s.txie := by rw [issue_frame]
@[simp] theorem issue_inited : (issue w s).inited = s.inited := by rw [issue_frame]
@[simp] theorem issue_line : (issue w s).line = s.line := by rw [issue_frame]
@[simp] theorem issue_m_nt : (issue w s).m.nt = s.m.nt := by rw [issue_frame]
@[simp] theorem issue_m_v : (issue w s).m.v = s.m.v := by rw [issue_frame]
@[simp] theorem issue_m_res : (issue w s).m.res = s.m.res := by rw [issue_frame]
@[simp] theorem issue_respLog : (issue w s).ghost.respLog = s.ghost.respLog := by rw [issue_frame]

end Issue

/-- The mainline's next step answers no command: it issues one, or goes on to the command's next phase. -/
def CompletesNothing (s : State) : Prop :=
  s.m.phase ∈ [Phase.idle, .w2, .w3, .r2] ∨
    (s.m.phase = .w1 ∧ ¬ (s.tx.head = s.tx.tail ∧ s.line.txReady = true)) ∨
    (s.m.phase = .r1 ∧ s.rx.head ≠ s.rx.tail)

end Sys2Proof.Machine

/-! Who writes what: for each part of the state, the operation and the phase that can change it; every other transition
leaves it as it was (spec/10_state.md R24, R28, R32 to R35; the rules of the phases). -/
namespace Sys2Proof.Machine.Transition

section
variable {s t : State} {i : Instr} (h : Transition s i t)
include h

/-! ## The rings and `TXIE` (R24) -/

theorem rx_tail_eq (hi : i ≠ .isrRx) : t.rx.tail = s.rx.tail := by
  cases h with
  | receive => exact absurd rfl hi
  | _ => simp

theorem rx_buf_eq (hi : i ≠ .isrRx) : t.rx.buf = s.rx.buf := by
  cases h with
  | receive => exact absurd rfl hi
  | _ => simp

theorem rx_head_eq (hi : ¬ (i = .mstep ∧ s.m.phase = .r3)) : t.rx.head = s.rx.head := by
  cases h with
  | deliver hp => exact absurd ⟨rfl, hp⟩ hi
  | _ => simp

theorem tx_tail_eq (hi : ¬ (i = .mstep ∧ s.m.phase = .w4)) : t.tx.tail = s.tx.tail := by
  cases h with
  | commit hp => exact absurd ⟨rfl, hp⟩ hi
  | _ => simp

theorem tx_head_eq (hi : i ≠ .isrTx) : t.tx.head = s.tx.head := by
  cases h with
  | transmit => exact absurd rfl hi
  | _ => simp

/-- R165: a byte is stored into `TXBUF` only in W3, and only at the slot `TX.tail`. -/
theorem lookup_tx_buf_eq {a : Nat} (ha : a ≠ s.tx.tail ∨ s.m.phase ≠ .w3) :
    Memory.lookup t.tx.buf a = Memory.lookup s.tx.buf a := by
  cases h with
  | store hp =>
    have ha' : a ≠ s.tx.tail := ha.resolve_right (not_not_intro hp)
    simpa using Memory.lookup_store_other s.tx.buf _ ha'
  | _ => simp

theorem txie_not_set (hi : ¬ (i = .mstep ∧ s.m.phase = .w4)) (hs : s.txie = false) : t.txie = false := by
  cases h with
  | commit hp => exact absurd ⟨rfl, hp⟩ hi
  | _ => simp [hs]

theorem txie_not_cleared (hi : i ≠ .isrTx) (hs : s.txie = true) : t.txie = true := by
  cases h with
  | transmit => exact absurd rfl hi
  | _ => simp [hs]

/-! ## The flags (R32 to R35) -/

theorem gie_eq (hs : s.m.phase ≠ .s1) (hk : s.m.phase ≠ .k1) : t.gie = s.gie := by
  cases h with
  | s1 hp => exact absurd hp hs
  | k1 hp => exact absurd hp hk
  | _ => simp

theorem rxie_inited_eq (hn : s.m.phase ≠ .n1) : t.rxie = s.rxie ∧ t.inited = s.inited := by
  cases h with
  | n1 hp => exact absurd hp hn
  | _ => simp

/-- R39: the mark `REFUSED` is written only at issue. -/
theorem refused_eq (hp : s.m.phase ≠ .idle ∨ (i ≠ .mstep ∧ isCommand i = false)) : t.refused = s.refused := by
  cases h with
  | presented hc hi => simp [hc, hi] at hp
  | issued hi | operand hi => simp [hi] at hp
  | _ => simp

/-! ## The mainline's registers and logs (R28, R29, R44) -/

/-- R96: between two issues the operand latch, the command index, `wr_log` and the command log stand. -/
theorem issueRegisters_eq (hi : s.m.phase ≠ .idle) :
    t.m.pc = s.m.pc ∧ t.m.b = s.m.b ∧ t.ghost.wrLog = s.ghost.wrLog ∧ t.cmdLog = s.cmdLog := by
  cases h with
  | presented _ hp | issued hp | operand hp => exact absurd hp hi
  | _ => simp

theorem m_nt_eq (hw : s.m.phase ≠ .w2) : t.m.nt = s.m.nt := by
  cases h with
  | spin hp | room hp => exact absurd hp hw
  | _ => simp

theorem m_v_eq (hr : s.m.phase ≠ .r2) : t.m.v = s.m.v := by
  cases h with
  | latch hp => exact absurd hp hr
  | _ => simp

/-- R100: the response register and `resp_log` change only together, on the way back to IDLE. -/
theorem unchanged_or_responds :
    (t.m.res = s.m.res ∧ t.ghost.respLog = s.ghost.respLog) ∨
      ∃ r, t.m.res = some r ∧ t.ghost.respLog = s.ghost.respLog ++ [r] ∧ t.m.phase = .idle := by
  cases h with
  | n1 | s1 | k1 | fast | commit | readEmpty | deliver | avail => exact .inr ⟨_, rfl, rfl, rfl⟩
  | _ => left; simp

end

/-! ## MSTEP alone -/

section
variable {s t : State} (h : Transition s .mstep t)
include h

theorem mstep_rx_line_eq : t.line.rxData = s.line.rxData ∧ t.line.rxAvail = s.line.rxAvail := by
  cases h <;> simp

theorem mstep_line_eq (hw : s.m.phase ≠ .w1) : t.line = s.line := by
  cases h with
  | fast hp => exact absurd hp hw
  | _ => simp

/-- R28, R100: a step that completes no command leaves the response register and `resp_log`. -/
theorem response_eq_of_completesNothing (hq : CompletesNothing s) :
    t.m.res = s.m.res ∧ t.ghost.respLog = s.ghost.respLog := by
  cases h with
  | n1 hp | s1 hp | k1 hp | commit hp | deliver hp | avail hp => simp [CompletesNothing, hp] at hq
  | fast hp _ he hr => simp [CompletesNothing, hp, he, hr] at hq
  | readEmpty hp _ he => simp [CompletesNothing, hp, he] at hq
  | _ => simp

/-- Of the ghosts a mainline step writes the two mainline logs, and never an argument of the run or the schedule. -/
theorem mstep_frame :
    t.ghost = { s.ghost with respLog := t.ghost.respLog, wrLog := t.ghost.wrLog } ∧
    t = { s with rx := t.rx, tx := t.tx, gie := t.gie, rxie := t.rxie, txie := t.txie, inited := t.inited,
                 line := t.line, m := t.m, fault := t.fault, refused := t.refused, ghost := t.ghost,
                 cmdLog := t.cmdLog } := by
  cases h with
  | presented | issued => rw [issue_frame]; exact ⟨rfl, rfl⟩
  | _ => exact ⟨rfl, rfl⟩

end

end Sys2Proof.Machine.Transition

/-! Frames and ownership of the whole machine (spec/10_state.md R24, R28; spec/30_encoding.md R100). -/
namespace Sys2Proof.Machine

/-- Settles O39: each clause is the frame of one part of the state, at MSTEP. -/
theorem mainlineFrame : Obligations.MainlineFrame := by
  intro s t hexec
  obtain ⟨-, h⟩ := exec_cases hexec
  have hisr : Instr.mstep ≠ .isrRx ∧ Instr.mstep ≠ .isrTx := by decide
  refine ⟨h.rx_tail_eq hisr.1, h.tx_head_eq hisr.2, h.mstep_rx_line_eq.1, h.mstep_rx_line_eq.2,
    fun a => by rw [h.rx_buf_eq hisr.1], fun a ha => h.lookup_tx_buf_eq ha,
    fun hp => h.rx_head_eq fun hc => hp hc.2, fun hp => ⟨h.tx_tail_eq fun hc => hp hc.2, ?_⟩,
    h.rxie_inited_eq, h.gie_eq, h.mstep_line_eq, fun hp => ?_, h.m_nt_eq, h.m_v_eq,
    h.response_eq_of_completesNothing, h.unchanged_or_responds, h.mstep_frame⟩
  · cases hs : s.txie with
    | false => exact h.txie_not_set (fun hc => hp hc.2) hs
    | true => exact h.txie_not_cleared hisr.2 hs
  · obtain ⟨hpc, hb, hwr, hcmd⟩ := h.issueRegisters_eq hp
    exact ⟨hpc, hb, hwr, hcmd, h.refused_eq (.inl hp)⟩

/-- Settles O43: by contraposition, a part of the state another step than its owner's leaves alone. -/
theorem onlyOwnersMoveIndices : Obligations.OnlyOwnersMoveIndices := by
  intro i s t hexec
  obtain ⟨-, h⟩ := exec_cases hexec
  refine ⟨Not.imp_symm h.rx_tail_eq, Not.imp_symm h.rx_head_eq, Not.imp_symm h.tx_tail_eq,
    Not.imp_symm h.tx_head_eq, fun hs ht => ?_, fun hs ht => ?_⟩
  · by_contra hi
    exact Bool.false_ne_true ((h.txie_not_set hi hs).symm.trans ht)
  · by_contra hi
    exact Bool.false_ne_true (ht.symm.trans (h.txie_not_cleared hi hs))

end Sys2Proof.Machine

/-! The account of the received bytes (spec/10_state.md R47, spec/20_memory.md R79). -/
namespace Sys2Proof.Machine

/-- The part of the state the account of the received bytes speaks of: the input and the position in it, the receive
half of the line, and the three receive ghosts. -/
def inputView (s : State) :=
  (s.lineIn, s.linePos, s.line.rxAvail, s.line.rxData, s.ghost.rxAccepted, s.ghost.rxDropped, s.ghost.rxHwLost)

theorem inputView_issue (w : Word) (s : State) : inputView (issue w s) = inputView s := by
  rw [issue_frame]; rfl

theorem waiting_of_avail {s : State} {v : Byte} (ha : s.line.rxAvail = true) (hd : s.line.rxData = some v) :
    waiting s = [v] := by
  simp [waiting, ha, hd]

theorem waiting_of_not_avail {s : State} (ha : s.line.rxAvail = false) : waiting s = [] := by
  simp [waiting, ha]

namespace InputAccounted
variable {s t : State}

theorem congr (hs : InputAccounted s) (hv : inputView t = inputView s) : InputAccounted t := by
  simp only [inputView, Prod.mk.injEq] at hv
  obtain ⟨hin, hpos, havail, hdata, hacc, hdrop, hlost⟩ := hv
  have hwait : waiting t = waiting s := by simp only [waiting, havail, hdata]
  constructor
  · rw [hpos, hacc, hdrop, hlost, havail]; exact hs.position
  · rw [hpos, hin]; exact hs.within
  · rw [hacc, hwait, hin, hpos]; exact hs.inOrder

/-- ISR_RX on a full buffer (R142): the waiting byte counts as dropped. -/
theorem drop {v : Byte} (hs : InputAccounted s) (ha : s.line.rxAvail = true) (hd : s.line.rxData = some v) :
    InputAccounted { s with
      line := { s.line with rxAvail := false }
      ghost := { s.ghost with rxDropped := s.ghost.rxDropped ++ [v] } } := by
  have hpos := hs.position
  have hord := hs.inOrder
  rw [waiting_of_avail ha hd] at hord
  constructor
  · simp only [ha, List.length_append, List.length_singleton, Bool.false_eq_true, ↓reduceIte] at hpos ⊢
    omega
  · exact hs.within
  · rw [waiting_of_not_avail rfl, List.append_nil]
    exact (List.sublist_append_left _ _).trans hord

/-- ISR_RX with room (R141): the waiting byte is stored. -/
theorem receive {v : Byte} {r : Ring} (hs : InputAccounted s) (ha : s.line.rxAvail = true)
    (hd : s.line.rxData = some v) :
    InputAccounted { s with
      rx := r
      line := { s.line with rxAvail := false }
      ghost := { s.ghost with rxAccepted := s.ghost.rxAccepted ++ [v] } } := by
  have hpos := hs.position
  have hord := hs.inOrder
  rw [waiting_of_avail ha hd] at hord
  constructor
  · simp only [ha, List.length_append, List.length_singleton, Bool.false_eq_true, ↓reduceIte] at hpos ⊢
    omega
  · exact hs.within
  · rw [waiting_of_not_avail rfl, List.append_nil]
    exact hord

/-- R217: the next byte of the input is lost while an older one waits. -/
theorem overrun {d : Byte} (hs : InputAccounted s) (hn : s.lineIn[s.linePos]? = some d) :
    InputAccounted { s with
      ghost := { s.ghost with rxHwLost := s.ghost.rxHwLost ++ [d] }, linePos := s.linePos + 1 } := by
  have hpos := hs.position
  constructor
  · simp only [List.length_append, List.length_singleton]
    omega
  · exact (List.getElem?_eq_some_iff.mp hn).1
  · exact hs.inOrder.trans (List.take_sublist_take_left (Nat.le_succ _))

/-- R216: the next byte of the input waits, the last one consumed. -/
theorem arrive {d : Byte} (hs : InputAccounted s) (hn : s.lineIn[s.linePos]? = some d)
    (ha : s.line.rxAvail = false) :
    InputAccounted { s with
      line := { s.line with rxData := some d, rxAvail := true }, linePos := s.linePos + 1 } := by
  have hpos := hs.position
  have hord := hs.inOrder
  rw [waiting_of_not_avail ha, List.append_nil] at hord
  constructor
  · simp only [ha, Bool.false_eq_true, ↓reduceIte] at hpos ⊢
    omega
  · exact (List.getElem?_eq_some_iff.mp hn).1
  · rw [waiting_of_avail rfl rfl, List.take_add_one, hn]
    exact hord.append (List.Sublist.refl [d])

/-- Only ISR_RX and LINE_RX touch the account; every other transition leaves all it speaks of. -/
theorem transition {i : Instr} (hs : InputAccounted s) (h : Transition s i t) : InputAccounted t := by
  cases h with
  | drop he hd =>
    obtain ⟨-, -, -, ha⟩ := isrRxEnabled_iff.mp he
    exact hs.drop ha hd
  | receive he hd =>
    obtain ⟨-, -, -, ha⟩ := isrRxEnabled_iff.mp he
    exact hs.receive ha hd
  | overrun he =>
    obtain ⟨-, -, hn⟩ := lineRxEnabled_iff.mp he
    exact hs.overrun hn
  | arrive he ha =>
    obtain ⟨-, -, hn⟩ := lineRxEnabled_iff.mp he
    exact hs.arrive hn ha
  | presented | issued => exact hs.congr (inputView_issue _ s)
  | _ => exact hs.congr rfl

end InputAccounted

/-- Settles O52, by the inversion of a step: the schedule is no part of the account, a reserved word is issued, and an
operation takes one of its transitions. -/
theorem everyStepKeepsTheInputAccount : Obligations.EveryStepKeepsTheInputAccount := by
  intro s t hs hstep
  rcases step_cases hstep with ⟨i, tr, n, hexec⟩ | ⟨w, tr, hpresent⟩
  · obtain ⟨-, h⟩ := exec_cases hexec
    have hs' : InputAccounted { s with trace := tr, draws := n } := hs.congr rfl
    exact hs'.transition h
  · obtain ⟨-, -, -, rfl⟩ := present_next hpresent
    exact hs.congr (inputView_issue w { s with trace := tr })

end Sys2Proof.Machine

/-! The two marks stop the agents (spec/10_state.md R39, spec/60_exceptions.md R232, R233). -/
namespace Sys2Proof.Machine

section Fault
variable {s : State} {k : FaultMark}

theorem agentStep_of_fault (hf : s.fault = some k) (a : Agent) (c : Bool) (body : State → Except Abort State) :
    agentStep a c body s = .fault (.stopped k) := by
  simp [agentStep, hf]

/-- The fault is asked for before the refusal has a say. -/
theorem mainlineStep_of_fault (hf : s.fault = some k) (c : Bool) (body : State → Except Abort State) :
    mainlineStep c body s = .fault (.stopped k) := by
  cases hr : s.refused with
  | none => simp [mainlineStep, hr, agentStep_of_fault hf]
  | some r => simp [mainlineStep, hr, hf]

theorem exec_of_fault (hf : s.fault = some k) (i : Instr) : exec i s = .fault (.stopped k) := by
  cases i with
  | init | write | read | avail | gieClr | gieSet | mstep => exact mainlineStep_of_fault hf _ _
  | isrRx | isrTx | lineRx | lineTx => exact agentStep_of_fault hf _ _ _

end Fault

/-- Fetching an operation moves only the schedule. -/
theorem fetch_run {s t : State} {i : Instr} (h : fetch s = .run i t) :
    ∃ tr n, t = { s with trace := tr, draws := n } := by
  unfold fetch at h
  split at h
  · split at h
    · cases h; exact ⟨_, s.draws, rfl⟩
    · cases h
  · split at h
    · cases h; exact ⟨s.trace, _, rfl⟩
    · cases h

/-- Fetching a reserved word moves only the schedule. -/
theorem fetch_presented {s t : State} {w : Word} (h : fetch s = .presented w t) :
    ∃ tr, t = { s with trace := tr } := by
  unfold fetch at h
  split at h
  · split at h
    · cases h
    · cases h; exact ⟨_, rfl⟩
  · split at h <;> cases h

theorem step_of_fault {s : State} {k : FaultMark} (hf : s.fault = some k) : step s = .fault (.stopped k) := by
  unfold step
  cases hfetch : fetch s with
  | run i t =>
    obtain ⟨tr, n, ht⟩ := fetch_run hfetch
    exact exec_of_fault (ht ▸ hf) i
  | presented w t =>
    obtain ⟨tr, ht⟩ := fetch_presented hfetch
    exact mainlineStep_of_fault (ht ▸ hf) _ _
  | nothing => simp [stopQuiescent, hf]

/-- Settles O45: the mark is asked for first in every agent's step, and fetching does not write it. -/
theorem faultStopsEveryAgent : Obligations.FaultStopsEveryAgent :=
  fun _ _ hf => ⟨exec_of_fault hf, step_of_fault hf⟩

/-- A mainline operation that has a next state found no refusal mark. -/
theorem exec_mainline_refused_none {i : Instr} {s t : State} (hi : i = .mstep ∨ isCommand i = true)
    (h : exec i s = .next t) : s.refused = none := by
  rcases hi with rfl | hi
  · obtain ⟨-, hr, -, -⟩ := mainlineStep_next h
    exact hr
  · rw [exec_command hi] at h
    obtain ⟨-, hr, -, -⟩ := present_next h
    exact hr

/-- Settles O47: the mainline's steps ask for the mark, the others neither write it nor read it. -/
theorem refusalStopsOnlyTheMainline : Obligations.RefusalStopsOnlyTheMainline := by
  intro s r hr
  refine ⟨fun i t hexec => ?_, fun i hm hc => ?_⟩
  · obtain ⟨-, h⟩ := exec_cases hexec
    have hother : ¬ (i = .mstep ∨ isCommand i = true) := fun hi => by
      simp [exec_mainline_refused_none hi hexec] at hr
    obtain ⟨hm, hc⟩ := not_or.mp hother
    have hc' : isCommand i = false := Bool.eq_false_iff.mpr hc
    exact ⟨hm, hc', (h.refused_eq (.inr ⟨hm, hc'⟩)).trans hr⟩
  · cases i with
    | init | write | read | avail | gieClr | gieSet => cases hc
    | mstep => exact absurd rfl hm
    | isrRx | isrTx | lineRx | lineTx => rfl

end Sys2Proof.Machine

/-! LINE_RX (spec/46_init_and_line_interface.md R216, R217). -/
namespace Sys2Proof.Machine

/-- An enabled LINE_RX runs its body. -/
theorem exec_lineRx_of_enabled {d : Byte} {s : State} (he : lineRxEnabled d s = true) :
    exec (.lineRx d) s = settle s (lineRxBody d s) := by
  obtain ⟨hf, -, -⟩ := lineRxEnabled_iff.mp he
  exact agentStep_of hf he

/-- Settles O36, from the acceptance of LINE_RX and the two branches of its body. -/
theorem lineReceivesOrOverruns : Obligations.LineReceivesOrOverruns := by
  intro s d hf
  refine ⟨fun hi hn ha => ?_, fun hi hn ha => ?_, fun hno t hexec => ?_, rfl⟩
  · refine ⟨_, ?_, rfl, fun hx => by simp [irqRx, hx]⟩
    rw [exec_lineRx_of_enabled (lineRxEnabled_iff.mpr ⟨hf, hi, hn⟩)]
    simp [lineRxBody, ha, settle]
  · rw [exec_lineRx_of_enabled (lineRxEnabled_iff.mpr ⟨hf, hi, hn⟩)]
    simp [lineRxBody, ha, settle]
  · obtain ⟨-, he, -⟩ := agentStep_next hexec
    obtain ⟨-, hi, hn⟩ := lineRxEnabled_iff.mp he
    rcases hno with hno | hno
    · simp [hi] at hno
    · exact hno hn

end Sys2Proof.Machine

/-! Reset and the beginning of a run (spec/10_state.md R46, spec/70_reset_and_hazards.md R270, R283). -/
namespace Sys2Proof.Machine

/-- R66: a read of an existing slot that holds no value faults, naming the slot. -/
theorem memRead_of_absent {sp : Space} {j : Nat} {s : State} (hj : j < s.cfg.capacity)
    (hl : Memory.lookup (ringOf sp s).buf j = none) :
    memRead sp j s = .error (.raised (.readUnwritten (.slot sp j))) := by
  simp [memRead, hj, hl]

section Start
variable (cfg : Config) (p : Program) (inp : List Byte) (tr : List Word)

theorem ringOf_start (sp : Space) : ringOf sp (State.start cfg p inp tr) = ⟨[], 0, 0⟩ := by
  cases sp <;> rfl

theorem lookup_start (sp : Space) (j : Nat) :
    Memory.lookup (ringOf sp (State.start cfg p inp tr)).buf j = none := by
  rw [ringOf_start]; rfl

theorem content_start (sp : Space) : content sp (State.start cfg p inp tr) = [] := by
  rw [content, ringOf_start]; exact ringContent_empty rfl

theorem count_start (sp : Space) : count sp (State.start cfg p inp tr) = 0 := by
  rw [count, ringOf_start]; rfl

/-- R283 where a run begins: both buffers empty, the transmitter ready, no command in progress, every log empty. -/
theorem invariants_start : Invariants (State.start cfg p inp tr) where
  noFault := rfl
  indices := by
    have hc : 0 < cfg.capacity := Nat.zero_lt_of_lt cfg.capacity_ge
    exact ⟨hc, hc, hc, hc⟩
  armed := by simp [ArmedIffNonEmpty, State.start]
  candidate := by simp [CandidateSound, State.start]
  counts := by simp [CountsBounded, count_start]
  present := by simp [ValuesPresent, State.start, occupied, ringCount]
  rxieInited := rfl
  quiet := fun _ => ⟨rfl, rfl, rfl, rfl, rfl, rfl, rfl, rfl, rfl⟩
  transmitOrder := by rw [TransmitOrder, content_start]; rfl
  receiveOrder := by rw [ReceiveOrder, content_start]; rfl

theorem working_start : Working (State.start cfg p inp tr) where
  inv := invariants_start cfg p inp tr
  logs := ⟨rfl, rfl⟩
  stored := by simp [StoredBeforePublish, State.start]
  reading := by simp [ReadInProgress, State.start]
  refusedIdle := fun _ => rfl
  beforeInit := fun _ => .inl rfl

theorem inputAccounted_start : InputAccounted (State.start cfg p inp tr) where
  position := rfl
  within := Nat.zero_le _
  inOrder := List.nil_sublist _

theorem storageCanonical_start : StorageCanonical (State.start cfg p inp tr) := by
  simp [StorageCanonical, State.start]

end Start

/-- Settles O11: reset is the start state of the default configuration, whose slots hold nothing. -/
theorem resetLeavesTheStatedValues : Obligations.ResetLeavesTheStatedValues :=
  ⟨rfl, rfl, rfl, rfl, rfl, rfl, rfl, rfl, rfl, rfl, rfl, lookup_start _ _ _ _,
    fun sp j hj => memRead_of_absent hj (lookup_start _ _ _ _ sp j)⟩

/-- Settles O50: the three invariants at the start state, each of its own. -/
theorem runsBeginWorking : Obligations.RunsBeginWorking := fun cfg p inp tr =>
  ⟨working_start cfg p inp tr, inputAccounted_start cfg p inp tr, storageCanonical_start cfg p inp tr⟩

end Sys2Proof.Machine

/-! The canonical form of the two storages (spec/20_memory.md R60). -/
namespace Sys2Proof.Machine

/-- Only ISR_RX's push and phase W3 store a byte, each at its ring's `tail`, which exists; every other transition leaves
both storages as they are. -/
theorem StorageCanonical.transition {s t : State} {i : Instr} (hs : StorageCanonical s) (h : Transition s i t) :
    StorageCanonical t := by
  obtain ⟨hrx, htx, hrxIn, htxIn⟩ := hs
  cases h with
  | store _ _ _ htail => exact ⟨hrx, Memory.store_wf htx _ _, hrxIn, Memory.store_within htxIn htail _⟩
  | receive _ _ _ htail => exact ⟨Memory.store_wf hrx _ _, htx, Memory.store_within hrxIn htail _, htxIn⟩
  | presented | issued => rw [issue_frame]; exact ⟨hrx, htx, hrxIn, htxIn⟩
  | _ => exact ⟨hrx, htx, hrxIn, htxIn⟩

/-- Settles O53, by the inversion of a step: neither the schedule nor the issue of a reserved word touches a storage,
and an operation takes one of its transitions. -/
theorem everyStepKeepsStorageCanonical : Obligations.EveryStepKeepsStorageCanonical := by
  intro s t hs hstep
  rcases step_cases hstep with ⟨i, tr, n, hexec⟩ | ⟨w, tr, hpresent⟩
  · obtain ⟨-, h⟩ := exec_cases hexec
    have hs' : StorageCanonical { s with trace := tr, draws := n } := hs
    exact hs'.transition h
  · obtain ⟨-, -, -, rfl⟩ := present_next hpresent
    rw [issue_frame]
    exact hs

end Sys2Proof.Machine

/-! The frames of the line hardware's two transitions (spec/20_memory.md R73, spec/46_init_and_line_interface.md R216 to
R218). -/
namespace Sys2Proof.Machine

/-- A step that leaves both rings leaves every slot. -/
theorem slots_eq_of_rings_eq {s t : State} (hrx : t.rx = s.rx) (htx : t.tx = s.tx) (sp : Space) (a : Nat) :
    Memory.lookup (ringOf sp t).buf a = Memory.lookup (ringOf sp s).buf a := by
  cases sp with
  | rxbuf => simp only [ringOf, hrx]
  | txbuf => simp only [ringOf, htx]

/-- Settles O42: a byte arrives or is lost in LINE_RX; one departs, or an absent one raises the fault, in LINE_TX. -/
theorem lineFrame : Obligations.LineFrame := by
  refine ⟨fun d s t hexec => ?_, fun s t hexec => ?_⟩
  · obtain ⟨-, h⟩ := exec_cases hexec
    cases h with
    | raised hm => cases hm
    | presented hc => cases hc
    | overrun | arrive => exact ⟨rfl, rfl, slots_eq_of_rings_eq rfl rfl, rfl⟩
  · obtain ⟨-, h⟩ := exec_cases hexec
    cases h with
    | presented hc => cases hc
    | raised | depart => exact ⟨rfl, rfl, slots_eq_of_rings_eq rfl rfl, rfl⟩

end Sys2Proof.Machine

/-! The free schedule (spec/20_memory.md R72, spec/60_exceptions.md R241, R242, spec/70_reset_and_hazards.md R280). -/
namespace Sys2Proof.Machine

/-- A fixed interrupt order makes the handler wait for the other, which is enabled (R242). -/
def handlerWaits (i : Instr) (s : State) : Bool :=
  match i with
  | .isrRx => s.cfg.irqOrder == .txFirst && isrTxEnabled s
  | .isrTx => s.cfg.irqOrder == .rxFirst && isrRxEnabled s
  | _ => false

theorem handlerWaits_of_everyOrder {s : State} (ho : s.cfg.irqOrder = .everyOrder) (i : Instr) :
    handlerWaits i s = false := by
  cases i <;> simp [handlerWaits, ho]

/-- A handler that waits does so for an enabled one that does not. -/
theorem exists_enabled_not_waiting {i : Instr} {s : State} (hc : isCommand i = false) (he : enabled i s = true) :
    ∃ j, isCommand j = false ∧ enabled j s = true ∧ handlerWaits j s = false := by
  cases hw : handlerWaits i s with
  | false => exact ⟨i, hc, he, hw⟩
  | true =>
    cases i with
    | isrRx =>
      obtain ⟨ho, htx⟩ : s.cfg.irqOrder = .txFirst ∧ isrTxEnabled s = true := by simpa [handlerWaits] using hw
      exact ⟨.isrTx, rfl, htx, by simp [handlerWaits, ho]⟩
    | isrTx =>
      obtain ⟨ho, hrx⟩ : s.cfg.irqOrder = .rxFirst ∧ isrRxEnabled s = true := by simpa [handlerWaits] using hw
      exact ⟨.isrRx, rfl, hrx, by simp [handlerWaits, ho]⟩
    | _ => cases hw

/-- LINE_RX is enabled with the next byte of the input only (R216). -/
theorem nextInput_of_lineRxEnabled {d : Byte} {s : State} (he : lineRxEnabled d s = true) : nextInput s = some d := by
  obtain ⟨-, -, hn⟩ := lineRxEnabled_iff.mp he
  exact hn

/-- R72, R242: the free schedule picks from the enabled labels, less a waiting handler. -/
theorem mem_candidates {i : Instr} {s : State} :
    i ∈ candidates s ↔ isCommand i = false ∧ enabled i s = true ∧ handlerWaits i s = false := by
  cases hn : nextInput s with
  | none =>
    have hline (d : Byte) : lineRxEnabled d s = false := by simp [lineRxEnabled, hn]
    cases i <;> simp [candidates, hn, hline, isCommand, enabled, handlerWaits, imp_iff_not_or]
  | some d =>
    have hline (e : Byte) : lineRxEnabled d s = true ∧ e = d ↔ lineRxEnabled e s = true := by
      refine ⟨fun ⟨he, hed⟩ => hed ▸ he, fun he => ?_⟩
      obtain rfl : d = e := Option.some.inj (hn.symm.trans (nextInput_of_lineRxEnabled he))
      exact ⟨he, rfl⟩
    cases i <;> simp [candidates, hn, hline, isCommand, enabled, handlerWaits, imp_iff_not_or]

/-- R280: no label is enabled. -/
theorem quiescent_iff {s : State} : quiescent s = true ↔ ∀ i, isCommand i = false → enabled i s = false := by
  constructor
  · intro hq i hc
    simp only [quiescent, Bool.and_eq_true, Bool.not_eq_true'] at hq
    obtain ⟨⟨⟨⟨hm, hrx⟩, htx⟩, hlineTx⟩, hlineRx⟩ := hq
    cases i with
    | mstep => exact hm
    | isrRx => exact hrx
    | isrTx => exact htx
    | lineTx => exact hlineTx
    | lineRx d =>
      by_contra he
      have he' : lineRxEnabled d s = true := Bool.eq_true_of_not_eq_false he
      simp [nextInput_of_lineRxEnabled he', he'] at hlineRx
    | init | write | read | avail | gieClr | gieSet => cases hc
  · intro hnone
    have hm : mstepEnabled s = false := hnone .mstep rfl
    have hrx : isrRxEnabled s = false := hnone .isrRx rfl
    have htx : isrTxEnabled s = false := hnone .isrTx rfl
    have hlineTx : lineTxEnabled s = false := hnone .lineTx rfl
    have hlineRx (d : Byte) : lineRxEnabled d s = false := hnone (.lineRx d) rfl
    cases hn : nextInput s <;> simp [quiescent, hm, hrx, htx, hlineTx, hlineRx, hn]

theorem candidates_eq_nil_iff {s : State} : candidates s = [] ↔ quiescent s = true := by
  rw [quiescent_iff, List.eq_nil_iff_forall_not_mem]
  refine ⟨fun hnone i hc => ?_, fun hq i hi => ?_⟩
  · by_contra he
    obtain ⟨j, hj⟩ := exists_enabled_not_waiting hc (Bool.eq_true_of_not_eq_false he)
    exact hnone j (mem_candidates.mpr hj)
  · obtain ⟨hc, he, -⟩ := mem_candidates.mp hi
    simp [hq i hc] at he

theorem step_of_candidates_ne_nil {s : State} (ht : s.trace = []) (hne : candidates s ≠ []) :
    ∃ i ∈ candidates s, step s = exec i { s with draws := s.draws + 1 } := by
  have hlt := Nat.mod_lt (Config.freeChoice s.draws) (List.length_pos_iff.mpr hne)
  refine ⟨_, List.getElem_mem hlt, ?_⟩
  simp only [step, fetch, ht, List.getElem?_eq_getElem hlt]

theorem step_of_candidates_eq_nil {s : State} (ht : s.trace = []) (hnil : candidates s = []) :
    step s = stopQuiescent s := by
  simp [step, fetch, ht, hnil]

/-- Settles O8: the candidates are the enabled labels but for a waiting handler, and none is left only where the state
is quiescent. -/
theorem freeScheduleTakesAnEnabledLabel : Obligations.FreeScheduleTakesAnEnabledLabel := by
  intro s ht
  refine ⟨fun hq => ?_, fun ho i => ?_, fun hq hf => ?_⟩
  · have hne : candidates s ≠ [] := fun hnil => by simp [candidates_eq_nil_iff.mp hnil] at hq
    obtain ⟨i, hi, hstep⟩ := step_of_candidates_ne_nil ht hne
    obtain ⟨hc, he, -⟩ := mem_candidates.mp hi
    exact ⟨i, hc, he, hstep⟩
  · simp [mem_candidates, handlerWaits_of_everyOrder ho]
  · rw [step_of_candidates_eq_nil ht (candidates_eq_nil_iff.mpr hq), stopQuiescent, hf]

end Sys2Proof.Machine

/-! Decoding and encoding are inverse to each other (spec/30_encoding.md R90, R91, R93). -/
namespace Sys2Proof

theorem wordOf_eq_iff {f : Fields} {w : Word} : wordOf f = w ↔ fieldsOf w = f :=
  ⟨fun h => h ▸ fieldsOf_wordOf f, fun h => h ▸ wordOf_fieldsOf w⟩

theorem encode_eq_iff {i : Instr} {w : Word} : encode i = w ↔ fieldsOf w = ⟨opcodeOf i, 0#4, dataOf i⟩ :=
  wordOf_eq_iff

theorem noOperand_eq_ok_iff {f : Fields} {i j : Instr} : noOperand f i = .ok j ↔ i = j ∧ f.data = 0#8 := by
  unfold noOperand
  split <;> simp [*]

theorem decode_encode (i : Instr) : decode (encode i) = .ok i := by
  rw [decode, fieldsOf_encode]
  cases i <;> rfl

/-- The fields of a word that decodes are its operation's. -/
theorem fields_of_decodeFields {f : Fields} {i : Instr} (h : decodeFields f = .ok i) :
    f.op = opcodeOf i ∧ f.data = dataOf i := by
  unfold decodeFields at h
  split at h
  case h_2 ho | h_9 ho => cases h; exact ⟨BitVec.eq_of_toNat_eq ho, rfl⟩
  case h_12 => cases h
  all_goals
    rename_i ho
    obtain ⟨rfl, hd⟩ := noOperand_eq_ok_iff.mp h
    exact ⟨BitVec.eq_of_toNat_eq ho, hd⟩

theorem encode_of_decode {w : Word} {i : Instr} (h : decode w = .ok i) : encode i = w := by
  unfold decode at h
  split at h
  · rename_i hz
    obtain ⟨hop, hdata⟩ := fields_of_decodeFields h
    have hzero : (fieldsOf w).zero = 0#4 := by simpa [Fields.zeroClear] using hz
    rw [encode_eq_iff, ← hop, ← hdata, ← hzero]
  · cases h

theorem decode_eq_ok_iff {w : Word} {i : Instr} : decode w = .ok i ↔ encode i = w :=
  ⟨encode_of_decode, fun h => h ▸ decode_encode i⟩

/-- Settles O1: a word decodes to an operation exactly when its fields are that operation's. -/
theorem decodeIsTheInverseOfEncode : Obligations.DecodeIsTheInverseOfEncode :=
  fun _ _ => decode_eq_ok_iff

theorem fieldsOf_of_decode {w : Word} {i : Instr} (h : decode w = .ok i) :
    fieldsOf w = ⟨opcodeOf i, 0#4, dataOf i⟩ := encode_eq_iff.mp (encode_of_decode h)

/-- Settles O3, by evaluation of the ten words. -/
theorem writtenWordsDecode : Obligations.WrittenWordsDecode := by
  unfold Obligations.WrittenWordsDecode
  decide

end Sys2Proof

/-! The rows of the opcode map and the list of reserved words (spec/30_encoding.md R93, R95, R97, R104). -/
namespace Sys2Proof

/-- One operation of each row. -/
def rowOperations : List Instr :=
  [.init, .write 0#8, .read, .avail, .gieClr, .gieSet, .isrRx, .isrTx, .lineRx 0#8, .lineTx, .mstep]

/-- The part of the data byte that the row of an operation code fixes: none of an operand, all of it otherwise (R90). -/
def fixedData (op : BitVec 4) : Byte := if op = 0x2#4 ∨ op = 0xA#4 then 0x00#8 else 0xFF#8

/-- The row of an operation. -/
def rowOf (i : Instr) : OpcodeRow :=
  ⟨mnemonicOf i, wordOf ⟨opcodeOf i, 0#4, 0#8⟩, wordOf ⟨0xF#4, 0xF#4, fixedData (opcodeOf i)⟩⟩

theorem opcodeMap_eq_map_rowOf : opcodeMap = rowOperations.map rowOf := by decide

theorem and_fixedData_eq_zero_iff {op : BitVec 4} {d : Byte} :
    d &&& fixedData op = 0#8 ↔ (op = 0x2#4 ∨ op = 0xA#4) ∨ d = 0#8 := by
  unfold fixedData
  split
  · simp [*]
  · have hall : d &&& 0xFF#8 = d := BitVec.and_allOnes
    simp [*]

/-- R90: the code of a row with the data byte that row allows is an operation. -/
theorem exists_operation_iff {op : BitVec 4} {d : Byte} :
    (∃ i, opcodeOf i = op ∧ dataOf i = d) ↔
      op ∈ rowOperations.map opcodeOf ∧ ((op = 0x2#4 ∨ op = 0xA#4) ∨ d = 0#8) := by
  constructor
  · rintro ⟨i, rfl, rfl⟩
    cases i <;> simp [opcodeOf, dataOf, rowOperations]
  · rintro ⟨hop, hd⟩
    obtain ⟨i, -, rfl⟩ := List.mem_map.mp hop
    cases i with
    | write => exact ⟨.write d, rfl, rfl⟩
    | lineRx => exact ⟨.lineRx d, rfl, rfl⟩
    | _ => exact ⟨_, rfl, (hd.resolve_left (by decide)).symm⟩

theorem wordOf_and_wordOf (f g : Fields) :
    wordOf f &&& wordOf g = wordOf ⟨f.op &&& g.op, f.zero &&& g.zero, f.data &&& g.data⟩ :=
  BitVec.and_append.trans (congrArg (· ++ (f.data &&& g.data)) BitVec.and_append)

/-- A word has a meaning exactly when its fields are an operation's. -/
theorem exists_decode_iff {w : Word} :
    (∃ i, decode w = .ok i) ↔ (fieldsOf w).zero = 0#4 ∧ (fieldsOf w).op ∈ rowOperations.map opcodeOf ∧
      (((fieldsOf w).op = 0x2#4 ∨ (fieldsOf w).op = 0xA#4) ∨ (fieldsOf w).data = 0#8) := by
  rw [← exists_operation_iff]
  constructor
  · rintro ⟨i, hi⟩
    rw [fieldsOf_of_decode hi]
    exact ⟨rfl, i, rfl, rfl⟩
  · rintro ⟨hzero, i, hop, hdata⟩
    exact ⟨i, decode_eq_ok_iff.mpr (encode_eq_iff.mpr (by rw [hop, hdata, ← hzero]))⟩

/-- A row looks at the operation code, the must-be-zero field, and the data byte unless it is an operand. -/
theorem selects_rowOf_iff_fields {w : Word} {i : Instr} : w &&& (rowOf i).mask = (rowOf i).pattern ↔
    (fieldsOf w).op = opcodeOf i ∧ (fieldsOf w).zero = 0#4 ∧
      ((opcodeOf i = 0x2#4 ∨ opcodeOf i = 0xA#4) ∨ (fieldsOf w).data = 0#8) := by
  have hall (x : BitVec 4) : x &&& 0xF#4 = x := BitVec.and_allOnes
  calc w &&& (rowOf i).mask = (rowOf i).pattern
      ↔ wordOf (fieldsOf w) &&& (rowOf i).mask = (rowOf i).pattern := by rw [wordOf_fieldsOf]
    _ ↔ wordOf ⟨(fieldsOf w).op, (fieldsOf w).zero, (fieldsOf w).data &&& fixedData (opcodeOf i)⟩ =
        (rowOf i).pattern := by rw [rowOf, wordOf_and_wordOf, hall, hall]
    _ ↔ _ := by rw [rowOf, wordOf_eq_iff, fieldsOf_wordOf, eq_comm, Fields.mk.injEq, and_fixedData_eq_zero_iff]

theorem opcodeOf_mem (i : Instr) : opcodeOf i ∈ rowOperations.map opcodeOf :=
  (exists_operation_iff.mp ⟨i, rfl, rfl⟩).1

/-- A word selects a row exactly when it decodes to an operation of the row's code. -/
theorem selects_rowOf_iff {w : Word} {i : Instr} :
    w &&& (rowOf i).mask = (rowOf i).pattern ↔ ∃ j, decode w = .ok j ∧ opcodeOf j = opcodeOf i := by
  rw [selects_rowOf_iff_fields]
  constructor
  · rintro ⟨hop, hzero, hdata⟩
    obtain ⟨j, hj⟩ := exists_decode_iff.mpr ⟨hzero, hop ▸ opcodeOf_mem i, hop ▸ hdata⟩
    exact ⟨j, hj, by rw [← hop, fieldsOf_of_decode hj]⟩
  · rintro ⟨j, hj, hop⟩
    obtain ⟨hzero, -, hdata⟩ := exists_decode_iff.mp ⟨j, hj⟩
    have hop' : (fieldsOf w).op = opcodeOf i := by rw [fieldsOf_of_decode hj, hop]
    exact ⟨hop', hzero, hop' ▸ hdata⟩

theorem rowsSelected_eq (w : Word) : rowsSelected w =
    (rowOperations.filter fun i => w &&& (rowOf i).mask == (rowOf i).pattern).map mnemonicOf := by
  rw [rowsSelected, opcodeMap_eq_map_rowOf, List.filter_map, List.map_map]
  rfl

theorem rowsSelected_of_decode_ok {w : Word} {i : Instr} (h : decode w = .ok i) :
    rowsSelected w = [mnemonicOf i] := by
  have hsel (j : Instr) : (w &&& (rowOf j).mask == (rowOf j).pattern) = (opcodeOf i == opcodeOf j) := by
    rw [Bool.eq_iff_iff, beq_iff_eq, beq_iff_eq, selects_rowOf_iff]
    simp [h]
  simp only [rowsSelected_eq, hsel]
  cases i <;> rfl

theorem rowsSelected_of_decode_error {w : Word} {e : DecodeError} (h : decode w = .error e) :
    rowsSelected w = [] := by
  have hsel (j : Instr) : (w &&& (rowOf j).mask == (rowOf j).pattern) = false := by
    rw [beq_eq_false_iff_ne, ne_eq, selects_rowOf_iff]
    simp [h]
  simp [rowsSelected_eq, hsel]

/-- R97's five reserved operation codes are those without a row. -/
theorem reservedOpcode_eq_false_iff (op : BitVec 4) :
    [0x0#4, 0x7#4, 0xD#4, 0xE#4, 0xF#4].contains op = false ↔ op ∈ rowOperations.map opcodeOf := by
  decide +revert

theorem reservedWord_eq_false_iff {w : Word} : Machine.reservedWord w = false ↔ ∃ i, decode w = .ok i := by
  rw [exists_decode_iff, ← reservedOpcode_eq_false_iff]
  simp only [Machine.reservedWord, Bool.or_eq_false_iff, Bool.and_eq_false_iff, bne_eq_false_iff_eq]
  tauto

/-- Settles O2, by whether the word decodes: the rows and the list of reserved words follow from that. -/
theorem everyWordIsOneRowOrReserved : Obligations.EveryWordIsOneRowOrReserved := by
  intro w
  cases h : decode w with
  | ok i => exact .inl ⟨i, rfl, rowsSelected_of_decode_ok h, reservedWord_eq_false_iff.mpr ⟨i, h⟩⟩
  | error e =>
    refine .inr ⟨⟨e, rfl⟩, rowsSelected_of_decode_error h, ?_⟩
    rw [← Bool.not_eq_false, reservedWord_eq_false_iff, h]
    simp

end Sys2Proof

/-! Command issue (spec/30_encoding.md R92, R96, R97): the tests in the rule's order, for a word the program answers
and for one presented on the command port. -/
namespace Sys2Proof.Machine

/-- The phase a command's operation code enters (R96). -/
def entryPhase (op : BitVec 4) : Phase :=
  if op = 1#4 then .n1 else if op = 2#4 then .w1 else if op = 3#4 then .r1
  else if op = 4#4 then .a1 else if op = 5#4 then .k1 else .s1

theorem firstPhase_eq (op : BitVec 4) :
    firstPhase op = if op ∈ [1#4, 2#4, 3#4, 4#4, 5#4, 6#4] then some (entryPhase op) else none := by
  decide +revert

/-- R96's tests as one chain. -/
theorem issueCheck_eq (f : Fields) (b : Bool) : issueCheck f b =
    if f.zero ≠ 0#4 ∨ f.op ∉ [1#4, 2#4, 3#4, 4#4, 5#4, 6#4] ∨ (f.op ≠ 2#4 ∧ f.data ≠ 0#8) then .error .reserved
    else if f.op ∈ [2#4, 3#4, 4#4] ∧ b = false then .error .beforeInit
    else if f.op = 1#4 ∧ b = true then .error .reinit
    else .ok (entryPhase f.op) := by
  have hmem : f.op ∈ [2#4, 3#4, 4#4] ↔ f.op = 2#4 ∨ f.op = 3#4 ∨ f.op = 4#4 := by simp
  rw [issueCheck, firstPhase_eq]
  by_cases hop : f.op ∈ [1#4, 2#4, 3#4, 4#4, 5#4, 6#4]
  · simp only [hop, if_true, not_true_eq_false, false_or, hmem]
  · simp only [hop, if_false, not_false_eq_true, true_or, or_true, if_true]

theorem issue_of_error {w : Word} {s : State} {r : RefusalMark} (h : issueCheck (fieldsOf w) s.inited = .error r) :
    issue w s = refuseMark r s := by
  simp only [issue, h]

theorem issue_of_ok {w : Word} {s : State} {p : Phase} (h : issueCheck (fieldsOf w) s.inited = .ok p) :
    issue w s = accept w p s := by
  simp only [issue, h]

theorem exec_command_of_ready {i : Instr} {s : State} (hi : isCommand i = true) (hs : cmdReady s = true) :
    exec i s = .next (issue (encode i) s) := by
  obtain ⟨hf, hr, hp⟩ := cmdReady_iff.mp hs
  rw [exec_command hi, present_of hf hr hp]

/-- A command refused on the ready port. -/
theorem exec_command_refused {i : Instr} {s : State} {r : RefusalMark} (hi : isCommand i = true)
    (hs : cmdReady s = true) (hr : issueCheck ⟨opcodeOf i, 0#4, dataOf i⟩ s.inited = .error r) :
    exec i s = .next { s with refused := some r } := by
  rw [exec_command_of_ready hi hs, issue_of_error (fieldsOf_encode i ▸ hr)]
  rfl

/-- A command latched on the ready port. -/
theorem exec_command_accepted {i : Instr} {s : State} {p : Phase} (hi : isCommand i = true)
    (hs : cmdReady s = true) (hp : issueCheck ⟨opcodeOf i, 0#4, dataOf i⟩ s.inited = .ok p) :
    exec i s = .next { s with
      m := { s.m with b := some (dataOf i), pc := s.m.pc + 1, phase := p }
      ghost := { s.ghost with
        wrLog := if opcodeOf i = 2#4 then s.ghost.wrLog ++ [dataOf i] else s.ghost.wrLog }
      cmdLog := s.cmdLog ++ [encode i] } := by
  rw [exec_command_of_ready hi hs, issue_of_ok (fieldsOf_encode i ▸ hp), accept, fieldsOf_encode]

/-- Settles O14, command by command: each passes R96's tests in its place. -/
theorem commandsAreLatched : Obligations.CommandsAreLatched := by
  intro s hs
  exact ⟨fun hi => exec_command_accepted rfl hs (by rw [hi]; rfl),
    fun hi _ => exec_command_accepted rfl hs (by rw [hi]; rfl),
    fun hi => exec_command_accepted rfl hs (by rw [hi]; rfl),
    fun hi => exec_command_accepted rfl hs (by rw [hi]; rfl),
    exec_command_accepted rfl hs rfl, exec_command_accepted rfl hs rfl⟩

/-- Settles O15: each fails the test of its place in the run, the words being well formed. -/
theorem commandsOutOfPlaceAreRefused : Obligations.CommandsOutOfPlaceAreRefused := by
  refine fun s hs => ⟨fun hi i hc => ?_, fun hi => exec_command_refused rfl hs (by rw [hi]; rfl)⟩
  rcases hc with rfl | rfl | ⟨d, rfl⟩
  · exact exec_command_refused rfl hs (by rw [hi]; rfl)
  · exact exec_command_refused rfl hs (by rw [hi]; rfl)
  · exact exec_command_refused rfl hs (by rw [hi]; rfl)

theorem opcodeOf_mem_commands_iff {i : Instr} :
    opcodeOf i ∈ [1#4, 2#4, 3#4, 4#4, 5#4, 6#4] ↔ isCommand i = true := by
  cases i <;> simp [opcodeOf, isCommand]

theorem mem_rowOpcodes_of_mem_commands {op : BitVec 4} (hop : op ∈ [1#4, 2#4, 3#4, 4#4, 5#4, 6#4]) :
    op ∈ rowOperations.map opcodeOf := by
  decide +revert

/-- A word that passes the first test is a command's. -/
theorem exists_command_of_test {w : Word} (hzero : (fieldsOf w).zero = 0#4)
    (hop : (fieldsOf w).op ∈ [1#4, 2#4, 3#4, 4#4, 5#4, 6#4])
    (hdata : (fieldsOf w).op ≠ 2#4 → (fieldsOf w).data = 0#8) : ∃ i, decode w = .ok i ∧ isCommand i = true := by
  have hrow : ((fieldsOf w).op = 0x2#4 ∨ (fieldsOf w).op = 0xA#4) ∨ (fieldsOf w).data = 0#8 :=
    or_iff_not_imp_left.mpr fun h => hdata (not_or.mp h).1
  obtain ⟨i, hi⟩ := exists_decode_iff.mpr ⟨hzero, mem_rowOpcodes_of_mem_commands hop, hrow⟩
  rw [fieldsOf_of_decode hi] at hop
  exact ⟨i, hi, opcodeOf_mem_commands_iff.mp hop⟩

/-- R97: a reserved word or a label fails the first test. -/
theorem issueCheck_of_reserved_or_label {w : Word}
    (h : reservedWord w = true ∨ ∃ i, decode w = .ok i ∧ isCommand i = false) (b : Bool) :
    issueCheck (fieldsOf w) b = .error .reserved := by
  rw [issueCheck_eq, if_pos]
  by_contra hpass
  push Not at hpass
  obtain ⟨hzero, hop, hdata⟩ := hpass
  obtain ⟨i, hi, hc⟩ := exists_command_of_test hzero hop hdata
  rcases h with h | ⟨j, hj, hcj⟩
  · simp [reservedWord_eq_false_iff.mpr ⟨i, hi⟩] at h
  · obtain rfl : i = j := Except.ok.inj (hi.symm.trans hj)
    simp [hc] at hcj

/-- Settles O4: the word fails the first test, and the mark it leaves stops the mainline. -/
theorem portRefusesReservedWordsAndLabels : Obligations.PortRefusesReservedWordsAndLabels := by
  intro w s hs hw
  obtain ⟨hf, hr, hp⟩ := cmdReady_iff.mp hs
  refine ⟨?_, fun i t hi hexec => ?_⟩
  · rw [present_of hf hr hp, issue_of_error (issueCheck_of_reserved_or_label hw _)]
    rfl
  · cases exec_mainline_refused_none hi.symm hexec

/-- Settles O38, from the frame of issue. -/
theorem commandFrame : Obligations.CommandFrame := by
  intro i s t hi hexec
  rw [exec_command hi] at hexec
  obtain ⟨-, hr, -, rfl⟩ := present_next hexec
  refine ⟨issue_rx _ s, issue_tx _ s, issue_gie _ s, issue_rxie _ s, issue_txie _ s, issue_inited _ s, issue_line _ s,
    ?_, issue_m_nt _ s, issue_m_v _ s, issue_m_res _ s, ?_, fun hw => ?_, ?_, fun ht => ?_,
    slots_eq_of_rings_eq (issue_rx _ s) (issue_tx _ s)⟩
  · rw [issue_frame]
  · rw [issue_frame]
  · rcases issue_cases (encode i) s with ⟨r, -, h⟩ | ⟨p, -, h⟩
    · rw [h]; rfl
    · rw [h, accept, fieldsOf_encode]
      cases i with
      | write d => exact absurd rfl (hw d)
      | _ => rfl
  · rw [issue_frame]
  · rcases issue_cases (encode i) s with ⟨r, -, h⟩ | ⟨p, -, h⟩
    · rw [h]; rfl
    · rw [h] at ht
      exact absurd hr ht

/-- Command issue as the rule writes it (R96). -/
theorem issue_eq (w : Word) (s : State) : issue w s =
    if (fieldsOf w).zero ≠ 0#4 ∨ (fieldsOf w).op ∉ [1#4, 2#4, 3#4, 4#4, 5#4, 6#4] ∨
        ((fieldsOf w).op ≠ 2#4 ∧ (fieldsOf w).data ≠ 0#8) then refuseMark .reserved s
    else if (fieldsOf w).op ∈ [2#4, 3#4, 4#4] ∧ s.inited = false then refuseMark .beforeInit s
    else if (fieldsOf w).op = 1#4 ∧ s.inited = true then refuseMark .reinit s
    else accept w (entryPhase (fieldsOf w).op) s := by
  rw [issue, issueCheck_eq]
  split_ifs <;> rfl

theorem exec_mstep_of_command {s : State} {w : Word} (hs : cmdReady s = true) (hn : nextChoice s = .command w) :
    exec .mstep s = .next (issue w s) := by
  obtain ⟨hf, hr, hp⟩ := cmdReady_iff.mp hs
  rw [exec_mstep_idle (unmarked_iff.mpr ⟨hf, hr⟩) hp (by simp [hn]), issueNext, hn]

/-- A pseudo-operation whose operand check fails writes only the mark (R193, R197, R233). -/
theorem exec_mstep_of_refuseOperand {s : State} (hs : cmdReady s = true) (hn : nextChoice s = .refuseOperand) :
    exec .mstep s = .next { s with refused := some .operand } := by
  obtain ⟨hf, hr, hp⟩ := cmdReady_iff.mp hs
  rw [exec_mstep_idle (unmarked_iff.mpr ⟨hf, hr⟩) hp (by simp [hn]), issueNext, hn]
  rfl

theorem mainlineStep_of_not {b : Bool} {body : State → Except Abort State} {s : State} (hf : s.fault = none)
    (hr : s.refused = none) (hb : b = false) : mainlineStep b body s = .refused (.notEnabled .mainline) := by
  simp [mainlineStep, agentStep, hf, hr, hb]

theorem exec_mstep_of_halt {s : State} (hs : cmdReady s = true) (hn : nextChoice s = .halt) :
    exec .mstep s = .refused (.notEnabled .mainline) := by
  obtain ⟨hf, hr, hp⟩ := cmdReady_iff.mp hs
  have hc : mainlineHasStep s = false := by simp [mainlineHasStep, hp, hn]
  exact mainlineStep_of_not hf hr hc

/-- Settles O13, by the program's answer. -/
theorem commandIssue : Obligations.CommandIssue := by
  intro s hp hf hr
  have hs : cmdReady s = true := cmdReady_iff.mpr ⟨hf, hr, hp⟩
  exact ⟨fun w hn => (exec_mstep_of_command hs hn).trans (congrArg _ (issue_eq w s)),
    exec_mstep_of_halt hs, exec_mstep_of_refuseOperand hs⟩

end Sys2Proof.Machine

/-! The schedule's next word (spec/30_encoding.md R103). -/
namespace Sys2Proof.Machine

/-- Settles O7, by whether the word decodes. -/
theorem stepRunsTheScheduledWord : Obligations.StepRunsTheScheduledWord := by
  intro s w rest ht
  refine ⟨fun i hi => ?_, fun e he => ?_⟩
  · simp only [step, fetch, ht, hi]
  · simp only [step, fetch, ht, he]

end Sys2Proof.Machine

/-! Pseudo-operations in a compiled program (spec/30_encoding.md R102, spec/45_formatted_output.md R190 to R203). -/
namespace Sys2Proof.Machine

section Compiled
variable (cfg : Config)

/-- The choices of a list of statements, pseudo-operations expanded. -/
def expandAll (ops : List SourceOp) : List Choice := (ops.map (expand cfg)).flatten

theorem answer_compileProgram_eq (ops : List SourceOp) (h : List Word) :
    answer (compileProgram cfg ops) h = (expandAll cfg ops)[h.length]?.getD .halt :=
  answer_compileProgram cfg ops h

theorem expandAll_append (before after : List SourceOp) :
    expandAll cfg (before ++ after) = expandAll cfg before ++ expandAll cfg after := by
  simp [expandAll]

theorem expandAll_cons (op : SourceOp) (after : List SourceOp) :
    expandAll cfg (op :: after) = expand cfg op ++ expandAll cfg after := rfl

/-- The number of responses of one statement: one for a command, one for each byte of a pseudo-operation. A refused
one counts the choice that refuses it. -/
def responsesOf : SourceOp → Nat
  | .command _ => 1
  | .pseudo o => match countWritten cfg o with | .ok k => k | .error _ => 1

theorem length_expand (op : SourceOp) : (expand cfg op).length = responsesOf cfg op := by
  cases op with
  | command w => rfl
  | pseudo o => cases h : pseudoBytes cfg o <;> simp [expand, responsesOf, countWritten, h]

theorem length_expandAll (ops : List SourceOp) :
    (expandAll cfg ops).length = (ops.map (responsesOf cfg)).sum := by
  rw [expandAll, List.length_flatten, List.map_map]
  congr 2
  exact funext (length_expand cfg)

end Compiled

section Position
variable {cfg : Config} (before after : List SourceOp)

/-- A statement's choices follow those of the statements before it. -/
theorem answer_at_statement {op : SourceOp} {k : Nat} {c : Choice} (hc : (expand cfg op)[k]? = some c)
    {h : List Word} (hh : h.length = (expandAll cfg before).length + k) :
    answer (compileProgram cfg (before ++ op :: after)) h = c := by
  obtain ⟨hk, -⟩ := List.getElem?_eq_some_iff.mp hc
  rw [answer_compileProgram_eq, expandAll_append, expandAll_cons, hh,
    List.getElem?_append_right (Nat.le_add_right _ _), Nat.add_sub_cancel_left, List.getElem?_append_left hk, hc,
    Option.getD_some]

/-- Those before it are not touched. -/
theorem answer_before_statement {h : List Word} (hh : h.length < (expandAll cfg before).length) :
    answer (compileProgram cfg (before ++ after)) h = answer (compileProgram cfg before) h := by
  rw [answer_compileProgram_eq, answer_compileProgram_eq, expandAll_append, List.getElem?_append_left hh]

/-- After its choices the statements after it follow as without it. -/
theorem answer_after_statement (op : SourceOp) {h h' : List Word} (hh' : (expandAll cfg before).length ≤ h'.length)
    (hh : h.length = h'.length + (expand cfg op).length) :
    answer (compileProgram cfg (before ++ op :: after)) h = answer (compileProgram cfg (before ++ after)) h' := by
  rw [answer_compileProgram_eq, answer_compileProgram_eq, expandAll_append, expandAll_append, expandAll_cons,
    ← List.append_assoc, List.getElem?_append_right (by simp; omega), List.getElem?_append_right hh', hh,
    List.length_append]
  congr 2
  omega

end Position

theorem countWritten_of_ok {cfg : Config} {op : PseudoOp} {bs : List Byte} (h : pseudoBytes cfg op = .ok bs) :
    countWritten cfg op = .ok bs.length := by
  simp only [countWritten, h]

theorem expand_pseudo_of_ok {cfg : Config} {op : PseudoOp} {bs : List Byte} (h : pseudoBytes cfg op = .ok bs) :
    expand cfg (.pseudo op) = bs.map fun b => .command (encode (.write b)) := by
  simp only [expand, h]

theorem expand_pseudo_of_error {cfg : Config} {op : PseudoOp} {r : RefusalMark} (h : pseudoBytes cfg op = .error r) :
    expand cfg (.pseudo op) = [.refuseOperand] := by
  simp only [expand, h]

/-- Settles O60, by the position of the pseudo-operation's choices among those of the whole list. -/
theorem pseudoOperationsExpandToWrites : Obligations.PseudoOperationsExpandToWrites := by
  intro cfg before after op p n
  have hn : n = (expandAll cfg before).length := (length_expandAll cfg before).symm
  refine ⟨fun bs hbs => ⟨countWritten_of_ok hbs, fun h k b hb hh => ?_, fun h h' hh' hh => ?_⟩, fun h hh => ?_,
    fun w h hh => ?_, fun h => rfl, ⟨rfl, rfl⟩, fun r hr s hs hlen hprog => ?_⟩
  · exact answer_at_statement before after (by rw [expand_pseudo_of_ok hbs, List.getElem?_map, hb]; rfl) (hn ▸ hh)
  · exact answer_after_statement before after _ (hn ▸ hh') (by rw [expand_pseudo_of_ok hbs, List.length_map, hh])
  · exact answer_before_statement before _ (hn ▸ hh)
  · exact answer_at_statement before after (k := 0) rfl (hn ▸ hh)
  · refine exec_mstep_of_refuseOperand hs ?_
    rw [nextChoice, hprog]
    exact answer_at_statement before after (k := 0) (by rw [expand_pseudo_of_error hr]; rfl) (hn ▸ hlen)

end Sys2Proof.Machine

/-! The written form (spec/30_encoding.md R101): a rendered operation is one statement, its mnemonic and its operand. -/
namespace Sys2Proof.Machine

/-- A character that neither ends a word nor begins a quote or a comment. -/
def plain (c : Char) : Bool := !(['\n', '\'', '-', ';', ' ', '\t'].contains c)

theorem tokens_of_plain {c : Char} (hc : plain c = true) (rest cur : List Char) :
    tokens (c :: rest) cur false = tokens rest (cur ++ [c]) false := by
  simp [plain] at hc
  simp [tokens, hc]

/-- Plain characters are read into the current word. -/
theorem tokens_plain_append {cs : List Char} (hcs : cs.all plain = true) (rest cur : List Char) :
    tokens (cs ++ rest) cur false = tokens rest (cur ++ cs) false := by
  induction cs generalizing cur with
  | nil => simp
  | cons c cs ih =>
    obtain ⟨hc, hcs⟩ : plain c = true ∧ cs.all plain = true := by simpa using hcs
    rw [List.cons_append, tokens_of_plain hc, ih hcs, List.append_assoc, List.singleton_append]

theorem plain_hexChar {n : Nat} (hn : n < 16) : plain (hexChar n) = true := by
  decide +revert

theorem hexValue_hexChar {n : Nat} (hn : n < 16) : hexValue (hexChar n) = some n := by
  decide +revert

/-- The operand byte as R101 shows it: two hexadecimal digits. -/
def hexByte (d : Byte) : List Char := ['0', 'x', hexChar (d.toNat / 16), hexChar (d.toNat % 16)]

theorem parseOperand_hexByte (d : Byte) : parseOperand (hexByte d) = some d := by
  have hd := d.isLt
  have hhigh : hexValue (hexChar (d.toNat / 16)) = some (d.toNat / 16) := hexValue_hexChar (by omega)
  have hlow : hexValue (hexChar (d.toNat % 16)) = some (d.toNat % 16) := hexValue_hexChar (by omega)
  have hsum : d.toNat / 16 * 16 + d.toNat % 16 = d.toNat := by omega
  calc parseOperand (hexByte d)
      = (readDigits 16 hexValue 0 [hexChar (d.toNat / 16), hexChar (d.toNat % 16)]).bind byteOfNat := rfl
    _ = byteOfNat d.toNat := by simp only [readDigits, hhigh, hlow, Nat.zero_mul, Nat.zero_add, hsum, Option.bind_some]
    _ = some d := by simp [byteOfNat, hd]

theorem hexByte_plain (d : Byte) : (hexByte d).all plain = true := by
  have hd := d.isLt
  have hhigh : plain (hexChar (d.toNat / 16)) = true := plain_hexChar (by omega)
  have hlow : plain (hexChar (d.toNat % 16)) = true := plain_hexChar (by omega)
  have h0 : plain '0' = true := by decide
  have hx : plain 'x' = true := by decide
  simp only [hexByte, List.all_cons, List.all_nil, h0, hx, hhigh, hlow, Bool.and_true]

/-- A word, a blank and a second word are one statement of two words. -/
theorem parseProgram_two_words {mn operand : List Char} (hmn : mn.all plain = true)
    (hop : operand.all plain = true) (hmn' : mn ≠ []) (hop' : operand ≠ []) :
    parseProgram (mn ++ ' ' :: operand) = (parseTokens [mn, operand]).map fun i => [i] := by
  have htokens : tokens (mn ++ ' ' :: operand) [] false = [.chars mn, .chars operand] := by
    have hoperand := tokens_plain_append hop [] []
    rw [List.append_nil, List.nil_append] at hoperand
    rw [tokens_plain_append hmn]
    simp [tokens, hoperand, flushToken]
  rw [parseProgram, htokens]
  cases h : parseTokens [mn, operand] <;> simp [statements, h]

theorem parseTokens_write (d : Byte) : parseTokens ["WRITE".toList, hexByte d] = some (.write d) := by
  rw [parseTokens, if_pos (by decide), parseOperand_hexByte, Option.map_some]

theorem parseTokens_lineRx (d : Byte) : parseTokens ["LINE_RX".toList, hexByte d] = some (.lineRx d) := by
  rw [parseTokens, if_neg (by decide), if_pos (by decide), parseOperand_hexByte, Option.map_some]

/-- Settles O5: a mnemonic alone is read by evaluation, and one with an operand for every byte by its two digits. -/
theorem writtenFormReadsBack : Obligations.WrittenFormReadsBack := by
  intro i
  cases i with
  | write d =>
    exact (parseProgram_two_words (mn := "WRITE".toList) (by decide) (hexByte_plain d) (by decide)
      (List.cons_ne_nil _ _)).trans (by rw [parseTokens_write, Option.map_some])
  | lineRx d =>
    exact (parseProgram_two_words (mn := "LINE_RX".toList) (by decide) (hexByte_plain d) (by decide)
      (List.cons_ne_nil _ _)).trans (by rw [parseTokens_lineRx, Option.map_some])
  | init | read | avail | gieClr | gieSet | isrRx | isrTx | lineTx | mstep => decide

end Sys2Proof.Machine

/-! When a step has a next state (spec/30_encoding.md R96, R103, spec/60_exceptions.md R240): with legal indices no body
names a slot that does not exist, so a step stops only where it is not enabled. -/
namespace Sys2Proof.Machine

/-- No access of a slot of number `C` or more. -/
def SlotsExist {α : Type} (r : Except Abort α) : Prop := ∀ sp n, r ≠ .error (.noSlot sp n)

namespace SlotsExist

theorem ok {α : Type} (v : α) : SlotsExist (.ok v) := nofun

theorem raised {α : Type} (k : FaultMark) : SlotsExist (.error (.raised k) : Except Abort α) := nofun

/-- A failure is passed on as it is. -/
theorem error {α β : Type} {r : Except Abort α} {a : Abort} (hr : SlotsExist r) (h : r = .error a) :
    SlotsExist (.error a : Except Abort β) := by
  rintro sp n ⟨⟩
  exact hr sp n h

theorem memRead {sp : Space} {n : Nat} {s : State} (hn : n < s.cfg.capacity) : SlotsExist (memRead sp n s) := by
  intro sp' n' h
  rcases memRead_error h with ⟨-, ha⟩ | ⟨hle, -⟩
  · cases ha
  · exact absurd hn (Nat.not_lt.mpr hle)

theorem memWrite {sp : Space} {n : Nat} {v : Byte} {s : State} (hn : n < s.cfg.capacity) :
    SlotsExist (memWrite sp n v s) := by
  intro sp' n' h
  obtain ⟨hle, -⟩ := memWrite_error h
  exact absurd hn (Nat.not_lt.mpr hle)

theorem readRegister {α : Type} (l : Location) (r : Option α) : SlotsExist (readRegister l r) := by
  intro sp n h
  cases (readRegister_error h).2

theorem lineRead (s : State) : SlotsExist (lineRead s) := by
  unfold Machine.lineRead
  split
  · exact ok _
  · exact (readRegister _ _).error ‹_›

theorem lineWrite (v : Byte) (s : State) : SlotsExist (lineWrite v s) := by
  intro sp n h
  cases (lineWrite_error h).2

theorem tryPush {sp : Space} {v : Byte} {s : State} (ht : (ringOf sp s).tail < s.cfg.capacity) :
    SlotsExist (tryPush sp v s) := by
  unfold Machine.tryPush
  dsimp only
  split
  · exact ok _
  · split
    · exact ok _
    · exact (memWrite ht).error ‹_›

theorem tryPop {sp : Space} {s : State} (hh : (ringOf sp s).head < s.cfg.capacity) : SlotsExist (tryPop sp s) := by
  unfold Machine.tryPop
  split
  · exact ok _
  · split
    · exact ok _
    · exact (memRead hh).error ‹_›

theorem guarded {body : State → Except Abort State} {s : State} (hb : SlotsExist (body { s with gie := false })) :
    SlotsExist (guarded body s) := by
  unfold Machine.guarded
  split
  · exact ok _
  · exact hb.error ‹_›

/-! ## The bodies -/

variable {s : State}

theorem isrRxBody (ht : s.rx.tail < s.cfg.capacity) : SlotsExist (isrRxBody s) := by
  unfold Machine.isrRxBody
  split
  · exact (lineRead _).error ‹_›
  · rename_i v t hread
    obtain ⟨-, rfl⟩ := lineRead_ok_iff.mp hread
    split
    · rename_i hpush
      exact error (tryPush (by exact ht)) hpush
    · exact ok _
    · exact ok _

theorem isrTxBody (hh : s.tx.head < s.cfg.capacity) : SlotsExist (isrTxBody s) := by
  unfold Machine.isrTxBody
  split
  · rename_i hpop
    exact error (tryPop (by exact hh)) hpop
  · exact raised _
  · split
    · exact (lineWrite _ _).error ‹_›
    · exact ok _

theorem lineRxBody (d : Byte) (s : State) : SlotsExist (lineRxBody d s) := by
  unfold Machine.lineRxBody
  split <;> exact ok _

theorem lineTxBody (s : State) : SlotsExist (lineTxBody s) := by
  unfold Machine.lineTxBody
  split
  · exact ok _
  · exact (readRegister _ _).error ‹_›

theorem phaseW1 (s : State) : SlotsExist (phaseW1 s) := by
  refine guarded ?_
  split
  · split
    · split
      · exact ok _
      · exact (lineWrite _ _).error ‹_›
    · exact (readRegister _ _).error ‹_›
  · exact ok _

theorem phaseW3 (ht : s.tx.tail < s.cfg.capacity) : SlotsExist (phaseW3 s) := by
  unfold Machine.phaseW3
  split
  · split
    · exact ok _
    · exact (memWrite ht).error ‹_›
  · exact (readRegister _ _).error ‹_›

theorem phaseW4 (s : State) : SlotsExist (phaseW4 s) := by
  refine guarded ?_
  split
  · exact ok _
  · exact (readRegister _ _).error ‹_›

theorem phaseR1 (s : State) : SlotsExist (phaseR1 s) := by
  unfold Machine.phaseR1
  split <;> exact ok _

theorem phaseR2 (hh : s.rx.head < s.cfg.capacity) : SlotsExist (phaseR2 s) := by
  unfold Machine.phaseR2
  split
  · exact ok _
  · exact (memRead hh).error ‹_›

theorem phaseR3 (s : State) : SlotsExist (phaseR3 s) := by
  unfold Machine.phaseR3
  split
  · exact ok _
  · exact (readRegister _ _).error ‹_›

theorem mainlineBody (hrxHead : s.rx.head < s.cfg.capacity) (htxTail : s.tx.tail < s.cfg.capacity) :
    SlotsExist (mainlineBody s) := by
  unfold Machine.mainlineBody
  split
  case h_3 => exact phaseW1 s
  case h_5 => exact phaseW3 htxTail
  case h_6 => exact phaseW4 s
  case h_7 => exact phaseR1 s
  case h_8 => exact phaseR2 hrxHead
  case h_9 => exact phaseR3 s
  all_goals exact ok _

end SlotsExist

theorem exists_settle_next {s : State} {r : Except Abort State} (hr : SlotsExist r) : ∃ t, settle s r = .next t := by
  unfold settle
  split
  · exact ⟨_, rfl⟩
  · exact ⟨_, rfl⟩
  · exact absurd rfl (hr _ _)

/-- An agent's step whose condition includes that no fault is marked has a next state exactly when it holds. -/
theorem exists_agentStep_next_iff {a : Agent} {c : Bool} {body : State → Except Abort State} {s : State}
    (hb : SlotsExist (body s)) (hcf : c = true → s.fault = none) :
    (∃ t, agentStep a c body s = .next t) ↔ c = true := by
  constructor
  · rintro ⟨t, h⟩
    obtain ⟨-, hc, -⟩ := agentStep_next h
    exact hc
  · intro hc
    rw [agentStep_of (hcf hc) hc]
    exact exists_settle_next hb

/-- The mainline's needs no refusal mark either. -/
theorem exists_mainlineStep_next_iff {c : Bool} {body : State → Except Abort State} {s : State}
    (hb : SlotsExist (body s)) :
    (∃ t, mainlineStep c body s = .next t) ↔ unmarked s = true ∧ c = true := by
  rw [unmarked_iff]
  constructor
  · rintro ⟨t, h⟩
    obtain ⟨hf, hr, hc, -⟩ := mainlineStep_next h
    exact ⟨⟨hf, hr⟩, hc⟩
  · rintro ⟨⟨hf, hr⟩, hc⟩
    rw [mainlineStep_of hf hr hc]
    exact exists_settle_next hb

/-- R96: the command port takes a word exactly when it is ready. -/
theorem exists_present_next_iff {w : Word} {s : State} : (∃ t, present w s = .next t) ↔ cmdReady s = true :=
  (exists_mainlineStep_next_iff (body := fun t => .ok (issue w t)) (SlotsExist.ok _)).trans Bool.and_eq_true_iff.symm

/-- Settles O9: an enabled step of legal indices settles, and a step with a next state was enabled. -/
theorem stepsRunExactlyWhenEnabled : Obligations.StepsRunExactlyWhenEnabled := by
  intro i s hs
  obtain ⟨hrxHead, hrxTail, htxHead, htxTail⟩ := hs
  cases i with
  | init | write | read | avail | gieClr | gieSet => exact exists_present_next_iff
  | isrRx => exact exists_agentStep_next_iff (SlotsExist.isrRxBody hrxTail) fun he => (isrRxEnabled_iff.mp he).1
  | isrTx => exact exists_agentStep_next_iff (SlotsExist.isrTxBody htxHead) fun he => (isrTxEnabled_iff.mp he).1
  | lineRx d => exact exists_agentStep_next_iff (SlotsExist.lineRxBody d s) fun he => (lineRxEnabled_iff.mp he).1
  | lineTx => exact exists_agentStep_next_iff (SlotsExist.lineTxBody s) fun he => (lineTxEnabled_iff.mp he).1
  | mstep =>
    exact (exists_mainlineStep_next_iff (SlotsExist.mainlineBody hrxHead htxTail)).trans Bool.and_eq_true_iff.symm

end Sys2Proof.Machine

/-! The ring buffer as a list of bytes (spec/40_ring_buffer.md R121 to R125, spec/70_reset_and_hazards.md R284). -/
namespace Sys2Proof.Machine

/-- A buffer whose indices are legal (R22) and whose occupied slots all hold a byte: all that pushes and pops need, and
what they keep. -/
structure RingSound (sp : Space) (s : State) : Prop where
  head_lt : (ringOf sp s).head < s.cfg.capacity
  tail_lt : (ringOf sp s).tail < s.cfg.capacity
  stored : ∀ i ∈ occupied s.cfg.capacity (ringOf sp s), (Memory.lookup (ringOf sp s).buf i).isSome = true

namespace RingSound
variable {sp : Space} {s : State}

/-- `count(B)` is the number of bytes of the content (R125). -/
theorem count_eq_length (hs : RingSound sp s) : count sp s = (content sp s).length :=
  (ringContent_length hs.stored).symm

theorem count_eq_zero_iff (hs : RingSound sp s) : count sp s = 0 ↔ (ringOf sp s).head = (ringOf sp s).tail :=
  ringCount_eq_zero_iff hs.head_lt

theorem full_iff (hs : RingSound sp s) :
    count sp s = s.cfg.capacity - 1 ↔ advance s.cfg (ringOf sp s).tail = (ringOf sp s).head :=
  ringCount_full_iff s.cfg hs.head_lt hs.tail_lt

theorem ringEmpty_of_content_nil (hs : RingSound sp s) (hc : content sp s = []) : ringEmpty sp s = true := by
  have hcount : count sp s = 0 := by rw [hs.count_eq_length, hc, List.length_nil]
  exact beq_iff_eq.mpr (hs.count_eq_zero_iff.mp hcount)

/-- A push with room appends the byte to the content (R121, R125). -/
theorem exists_push (hs : RingSound sp s) (hroom : count sp s ≠ s.cfg.capacity - 1) (v : Byte) :
    ∃ t, tryPush sp v s = .ok (some t) ∧ content sp t = content sp s ++ [v] ∧ RingSound sp t ∧ t.cfg = s.cfg := by
  have hn := mt hs.full_iff.mpr hroom
  refine ⟨_, tryPush_of_room hs.tail_lt hn v, ?_, ⟨?_, ?_, ?_⟩, setRing_cfg s sp _⟩
  · simpa only [content, setRing_cfg, ringOf_setRing] using ringContent_push s.cfg hs.head_lt hs.tail_lt hn v
  · simpa only [setRing_cfg, ringOf_setRing] using hs.head_lt
  · simpa only [setRing_cfg, ringOf_setRing] using advance_lt s.cfg _
  · simp only [setRing_cfg, ringOf_setRing, occupied_push s.cfg hs.head_lt hs.tail_lt hn, Memory.lookup_store]
    intro i hi
    split
    · rfl
    · next hne => exact hs.stored i (by simpa [hne] using hi)

/-- A pop of a buffer that is not empty takes the content's first byte (R122, R125). -/
theorem exists_pop (hs : RingSound sp s) (hcount : count sp s ≠ 0) :
    ∃ v t, tryPop sp s = .ok (some (v, t)) ∧ content sp s = v :: content sp t ∧ RingSound sp t ∧ t.cfg = s.cfg := by
  have hn := mt hs.count_eq_zero_iff.mpr hcount
  obtain ⟨v, hv⟩ := Option.isSome_iff_exists.mp (hs.stored _ (head_occupied s.cfg hs.head_lt hs.tail_lt hn))
  refine ⟨v, _, tryPop_of_byte hs.head_lt hn hv, ?_, ⟨?_, ?_, ?_⟩, setRing_cfg s sp _⟩
  · simpa only [content, setRing_cfg, ringOf_setRing] using ringContent_pop s.cfg hs.head_lt hs.tail_lt hn hv
  · simpa only [setRing_cfg, ringOf_setRing] using advance_lt s.cfg _
  · simpa only [setRing_cfg, ringOf_setRing] using hs.tail_lt
  · simp only [setRing_cfg, ringOf_setRing]
    intro i hi
    refine hs.stored i ?_
    rw [occupied_pop s.cfg hs.head_lt hs.tail_lt hn (ringOf sp s).buf]
    exact List.mem_cons_of_mem _ hi

/-- Pushes that fit all succeed and append their bytes in order. -/
theorem exists_pushAll (hs : RingSound sp s) (bs : List Byte)
    (hfit : (content sp s).length + bs.length ≤ s.cfg.capacity - 1) :
    ∃ t, pushAll sp bs s = some t ∧ content sp t = content sp s ++ bs ∧ RingSound sp t := by
  induction bs generalizing s with
  | nil => exact ⟨s, rfl, (List.append_nil _).symm, hs⟩
  | cons b rest ih =>
    rw [List.length_cons] at hfit
    obtain ⟨t, hpush, hct, ht, hcfg⟩ := hs.exists_push (by rw [hs.count_eq_length]; omega) b
    obtain ⟨u, hpushAll, hcu, hu⟩ := ih ht (by rw [hct, hcfg, List.length_append, List.length_singleton]; omega)
    refine ⟨u, ?_, ?_, hu⟩
    · simpa only [pushAll, hpush] using hpushAll
    · rw [hcu, hct, List.append_assoc, List.singleton_append]

/-- As many pops as a prefix of the content has bytes return that prefix and leave the rest. -/
theorem exists_popAll (hs : RingSound sp s) {bs rest : List Byte} (hc : content sp s = bs ++ rest) :
    ∃ u, popAll sp bs.length s = some (bs, u) ∧ content sp u = rest ∧ RingSound sp u := by
  induction bs generalizing s with
  | nil => exact ⟨s, rfl, hc, hs⟩
  | cons b bs ih =>
    obtain ⟨v, t, hpop, hct, ht, -⟩ := hs.exists_pop (by simp [hs.count_eq_length, hc])
    obtain ⟨rfl, hrest⟩ := List.cons.inj (hct.symm.trans hc)
    obtain ⟨u, hpopAll, hcu, hu⟩ := ih ht hrest
    exact ⟨u, by simp only [List.length_cons, popAll, hpop, hpopAll, Option.map_some], hcu, hu⟩

end RingSound

section Fresh
variable {sp : Space} {s : State} (hfresh : ringOf sp s = ⟨[], 0, 0⟩)
include hfresh

theorem content_of_fresh : content sp s = [] := by
  rw [content, hfresh]
  exact ringContent_empty rfl

theorem ringSound_of_fresh : RingSound sp s := by
  have hpos : 0 < s.cfg.capacity := by have := s.cfg.capacity_ge; omega
  have hnone : occupied s.cfg.capacity (ringOf sp s) = [] := by rw [hfresh]; rfl
  exact ⟨by rw [hfresh]; exact hpos, by rw [hfresh]; exact hpos, by simp [hnone]⟩

end Fresh

/-- Settles O48, by whether the buffer is full and whether it is empty; the counts follow from the contents. -/
theorem pushAndPopActOnTheContent : Obligations.PushAndPopActOnTheContent := by
  intro sp s hhead htail hstored
  have hs : RingSound sp s := ⟨hhead, htail, hstored⟩
  refine ⟨fun hfull => tryPush_of_full (hs.full_iff.mp hfull), fun hroom v => ?_,
    fun hzero => tryPop_of_empty (hs.count_eq_zero_iff.mp hzero), fun hcount => ?_, hs.count_eq_length⟩
  · obtain ⟨t, hpush, hct, ht, -⟩ := hs.exists_push hroom v
    refine ⟨t, hpush, hct, ?_⟩
    rw [ht.count_eq_length, hs.count_eq_length, hct, List.length_append, List.length_singleton]
  · obtain ⟨v, t, hpop, hct, ht, -⟩ := hs.exists_pop hcount
    refine ⟨v, t, hpop, hct, ?_⟩
    rw [ht.count_eq_length, hs.count_eq_length, hct, List.length_cons]

/-- Settles O49: the pushes build the list as the content, and as many pops take all of it. -/
theorem freshBufferIsFirstInFirstOut : Obligations.FreshBufferIsFirstInFirstOut := by
  intro sp s bs hfresh hfit
  have hnil := content_of_fresh hfresh
  obtain ⟨t, hpush, hct, ht⟩ := (ringSound_of_fresh hfresh).exists_pushAll bs (by simpa [hnil] using hfit)
  rw [hnil, List.nil_append] at hct
  obtain ⟨u, hpop, hcu, hu⟩ := ht.exists_popAll (hct.trans (List.append_nil bs).symm)
  exact ⟨t, u, hpush, hct, hpop, hu.ringEmpty_of_content_nil hcu⟩

end Sys2Proof.Machine

/-! ISR_RX (spec/41_rx_handler.md R141, R142, R244). -/
namespace Sys2Proof.Machine

/-- An enabled ISR_RX runs its body. -/
theorem exec_isrRx_of_enabled {s : State} (he : isrRxEnabled s = true) :
    exec .isrRx s = settle s (isrRxBody s) := by
  obtain ⟨hf, -, -, -⟩ := isrRxEnabled_iff.mp he
  exact agentStep_of hf he

/-- R68: a read of the data register that holds a byte takes it and clears `LINE.rx_avail`. -/
theorem lineRead_of_byte {s : State} {v : Byte} (hv : s.line.rxData = some v) :
    lineRead s = .ok (v, { s with line := { s.line with rxAvail := false } }) :=
  lineRead_ok_iff.mpr ⟨hv, rfl⟩

section Body
variable {s : State} {v : Byte} (hg : s.gie = true) (hv : s.line.rxData = some v)
include hg hv

/-- R142: with `RX` full the register is read and the byte counts as dropped; the handler's return sets the `GIE` its
entry cleared. -/
theorem isrRxBody_of_full (hfull : advance s.cfg s.rx.tail = s.rx.head) :
    isrRxBody s = .ok { s with
      line := { s.line with rxAvail := false }
      ghost := { s.ghost with rxDropped := s.ghost.rxDropped ++ [v] } } := by
  simp only [isrRxBody, lineRead_of_byte (s := handlerEntry s) hv]
  rw [tryPush_of_full (by exact hfull)]
  simp [handlerReturn, hg]

/-- R141: with room the register is read and its byte is pushed, as `tryPush_of_room` says. -/
theorem isrRxBody_of_room (htail : s.rx.tail < s.cfg.capacity) (hroom : advance s.cfg s.rx.tail ≠ s.rx.head) :
    isrRxBody s = .ok { s with
      rx := ⟨Memory.store s.rx.buf s.rx.tail v, s.rx.head, advance s.cfg s.rx.tail⟩
      line := { s.line with rxAvail := false }
      ghost := { s.ghost with rxAccepted := s.ghost.rxAccepted ++ [v] } } := by
  simp only [isrRxBody, lineRead_of_byte (s := handlerEntry s) hv]
  rw [tryPush_of_room (by exact htail) (by exact hroom)]
  simp [handlerReturn, setRing, hg]

end Body

/-- Settles O32, by whether the buffer is full; the stored byte is read back by the law of `Memory.store`. -/
theorem receiveHandler : Obligations.ReceiveHandler := by
  intro s v hf hg hx ha hv htail
  rw [exec_isrRx_of_enabled (isrRxEnabled_iff.mpr ⟨hf, hg, hx, ha⟩)]
  exact ⟨fun hfull => congrArg (settle s) (isrRxBody_of_full hg hv hfull),
    fun hroom => ⟨_, congrArg (settle s) (isrRxBody_of_room hg hv htail hroom),
      fun a => Memory.lookup_store s.rx.buf s.rx.tail a v, rfl⟩⟩

/-- Settles O40, by the three transitions of ISR_RX: a fault raised, the byte dropped, the byte stored at `RX.tail`. -/
theorem receiveHandlerFrame : Obligations.ReceiveHandlerFrame := by
  intro s t hexec
  obtain ⟨-, h⟩ := exec_cases hexec
  cases h with
  | raised | drop => exact ⟨rfl, fun _ _ => rfl, fun _ => rfl, rfl, rfl, rfl⟩
  | receive =>
    exact ⟨rfl, fun _ hne => Memory.lookup_store_other s.rx.buf _ hne, fun _ => rfl, rfl, rfl, rfl⟩
  | presented hc => cases hc

end Sys2Proof.Machine

/-! ISR_TX (spec/42_tx_handler.md R151 to R153, spec/60_exceptions.md R231, R232, R244). -/
namespace Sys2Proof.Machine

/-- An enabled ISR_TX runs its body. -/
theorem exec_isrTx_of_enabled {s : State} (he : isrTxEnabled s = true) :
    exec .isrTx s = settle s (isrTxBody s) := by
  obtain ⟨hf, -, -, -⟩ := isrTxEnabled_iff.mp he
  exact agentStep_of hf he

/-- R69: hardware that is ready takes the byte and is not ready any more. -/
theorem lineWrite_of_ready {s : State} (hr : s.line.txReady = true) (v : Byte) :
    lineWrite v s = .ok { s with line := { s.line with txData := some v, txReady := false } } :=
  lineWrite_ok_iff.mpr ⟨hr, rfl⟩

/-- R153: a pop of the empty buffer raises the fault, with `TX.head` recorded. -/
theorem isrTxBody_of_empty {s : State} (hn : s.tx.head = s.tx.tail) :
    isrTxBody s = .error (.raised (.txEmptyPop s.tx.head)) := by
  rw [isrTxBody, tryPop_of_empty (by exact hn)]

/-- R152: `TXIE` is cleared exactly if the buffer is empty. -/
theorem disarmIfEmpty_eq (s : State) :
    disarmIfEmpty s = { s with txie := if s.tx.head = s.tx.tail then false else s.txie } := by
  by_cases hn : s.tx.head = s.tx.tail
  · simp [disarmIfEmpty, ringEmpty, hn]
  · simp [disarmIfEmpty, ringEmpty, hn]

/-- R151: with a byte at the head the pop is as `tryPop_of_byte` says, the hardware takes its byte, and the new indices
decide whether the handler disarms; its return sets the `GIE` its entry cleared. -/
theorem isrTxBody_of_byte {s : State} {v : Byte} (hg : s.gie = true) (hr : s.line.txReady = true)
    (hn : s.tx.head ≠ s.tx.tail) (hh : s.tx.head < s.cfg.capacity)
    (hv : Memory.lookup s.tx.buf s.tx.head = some v) :
    isrTxBody s = .ok { s with
      tx := { s.tx with head := advance s.cfg s.tx.head }
      line := { s.line with txData := some v, txReady := false }
      txie := if advance s.cfg s.tx.head = s.tx.tail then false else s.txie } := by
  rw [isrTxBody, tryPop_of_byte (by exact hh) (by exact hn) (by exact hv)]
  dsimp only
  rw [lineWrite_of_ready (by exact hr)]
  simp [disarmIfEmpty_eq, handlerReturn, setRing, hg]

/-- ISR_TX accepted with a byte at the head, as a step. -/
theorem exec_isrTx_of_byte {s : State} {v : Byte} (he : isrTxEnabled s = true) (hn : s.tx.head ≠ s.tx.tail)
    (hh : s.tx.head < s.cfg.capacity) (hv : Memory.lookup s.tx.buf s.tx.head = some v) :
    exec .isrTx s = .next { s with
      tx := { s.tx with head := advance s.cfg s.tx.head }
      line := { s.line with txData := some v, txReady := false }
      txie := if advance s.cfg s.tx.head = s.tx.tail then false else s.txie } := by
  obtain ⟨-, hg, -, hr⟩ := isrTxEnabled_iff.mp he
  rw [exec_isrTx_of_enabled he, isrTxBody_of_byte hg hr hn hh hv]
  rfl

/-- Settles O33, from the acceptance of ISR_TX and the successful pop of its body. -/
theorem transmitHandler : Obligations.TransmitHandler := by
  intro s v hf hg hx hr hn hh hv
  rw [exec_isrTx_of_byte (isrTxEnabled_iff.mpr ⟨hf, hg, hx, hr⟩) hn hh hv, hx]
  rfl

/-- Settles O34: the failed pop writes only the mark, which stops every agent. -/
theorem emptyPopFaults : Obligations.EmptyPopFaults := by
  refine fun s hf hg hx hr hn => ⟨?_, fun i t hexec => ?_⟩
  · rw [exec_isrTx_of_enabled (isrTxEnabled_iff.mpr ⟨hf, hg, hx, hr⟩), isrTxBody_of_empty hn]
    rfl
  · rw [exec_of_fault rfl] at hexec
    cases hexec

/-- Settles O41, by the two transitions of ISR_TX: a fault raised, or the byte at the head transmitted. -/
theorem transmitHandlerFrame : Obligations.TransmitHandlerFrame := by
  intro s t hexec
  obtain ⟨-, h⟩ := exec_cases hexec
  cases h with
  | raised | transmit => exact ⟨rfl, fun sp _ => by cases sp <;> rfl, rfl, rfl⟩
  | presented hc => cases hc

end Sys2Proof.Machine

/-! The release of a WRITE that spins on a full buffer (spec/42_tx_handler.md R155, spec/43_write_api.md R163 to R166,
spec/46_init_and_line_interface.md R218). -/
namespace Sys2Proof.Machine

/-- R125: a pop and a push together take the content's first byte and append another. -/
theorem ringContent_pop_push (cfg : Config) {r : Ring} (hh : r.head < cfg.capacity) (ht : r.tail < cfg.capacity)
    (hn : r.head ≠ r.tail) (hroom : advance cfg r.tail ≠ advance cfg r.head) {v : Byte}
    (hv : Memory.lookup r.buf r.head = some v) (d : Byte) :
    ringContent cfg.capacity ⟨Memory.store r.buf r.tail d, advance cfg r.head, advance cfg r.tail⟩ =
      (ringContent cfg.capacity r).tail ++ [d] := by
  rw [ringContent_pop cfg hh ht hn hv, List.tail_cons]
  exact ringContent_push cfg (r := ⟨r.buf, advance cfg r.head, r.tail⟩) (advance_lt cfg _) ht hroom d

/-- A trace whose first step has a next state goes on from there (R103). -/
theorem runTrace_cons_of_next {i : Instr} {s t : State} (h : exec i s = .next t) (rest : List Instr) :
    runTrace (i :: rest) s = runTrace rest t := by
  simp only [runTrace, h]

/-- R218: the byte in flight leaves and the hardware is ready. -/
theorem exec_lineTx_of_byte {s : State} {v : Byte} (hf : s.fault = none) (hr : s.line.txReady = false)
    (hv : s.line.txData = some v) :
    exec .lineTx s = .next { s with
      ghost := { s.ghost with lineOut := s.ghost.lineOut ++ [v] }
      line := { s.line with txReady := true } } := by
  refine (agentStep_of hf (lineTxEnabled_iff.mpr ⟨hf, hr⟩)).trans ?_
  rw [lineTxBody, readRegister_ok_iff.mpr hv]
  rfl

/-- R155: a ready event and the transmit handler, on a buffer armed with a byte at its head. -/
theorem runTrace_lineTx_isrTx {s : State} {v w : Byte} (hf : s.fault = none) (hg : s.gie = true) (hx : s.txie = true)
    (hr : s.line.txReady = false) (hw : s.line.txData = some w) (hn : s.tx.head ≠ s.tx.tail)
    (hh : s.tx.head < s.cfg.capacity) (hv : Memory.lookup s.tx.buf s.tx.head = some v) (rest : List Instr) :
    runTrace (.lineTx :: .isrTx :: rest) s = runTrace rest { s with
      tx := { s.tx with head := advance s.cfg s.tx.head }
      line := { s.line with txData := some v, txReady := false }
      txie := if advance s.cfg s.tx.head = s.tx.tail then false else s.txie
      ghost := { s.ghost with lineOut := s.ghost.lineOut ++ [w] } } := by
  rw [runTrace_cons_of_next (exec_lineTx_of_byte hf hr hw),
    runTrace_cons_of_next (exec_isrTx_of_byte (by exact isrTxEnabled_iff.mpr ⟨hf, hg, hx, rfl⟩) (by exact hn)
      (by exact hh) (by exact hv))]

section Phases
variable {s : State} (hu : unmarked s = true)
include hu

/-- R163: with room the candidate tail is latched and W3 is next. -/
theorem exec_mstep_w2_of_room (hp : s.m.phase = .w2) (hn : advance s.cfg s.tx.tail ≠ s.tx.head) :
    exec .mstep s = .next { s with
      m := { s.m with nt := some (advance s.cfg s.tx.tail), phase := .w3 } } := by
  rw [exec_mstep_of_phase hu (by simp [hp])]
  simp [mainlineBody, hp, phaseW2, hn, settle]

/-- R165: the operand is stored at the slot `TX.tail`. -/
theorem exec_mstep_w3 {d : Byte} (hp : s.m.phase = .w3) (hb : s.m.b = some d) (ht : s.tx.tail < s.cfg.capacity) :
    exec .mstep s = .next { s with
      tx := { s.tx with buf := Memory.store s.tx.buf s.tx.tail d }
      m := { s.m with phase := .w4 } } := by
  rw [exec_mstep_of_phase hu (by simp [hp]), mainlineBody, hp]
  simp only [phaseW3, readRegister_ok_iff.mpr hb, memWrite_ok_iff.mpr ⟨ht, rfl⟩]
  rfl

/-- R166: the candidate tail is published, `TXIE` armed, and the command answered, under the guard. -/
theorem exec_mstep_w4 {n : Nat} (hp : s.m.phase = .w4) (hn : s.m.nt = some n) :
    exec .mstep s = .next { s with
      tx := { s.tx with tail := n }
      txie := true
      m := { s.m with res := some respWritten, phase := .idle }
      ghost := { s.ghost with respLog := s.ghost.respLog ++ [respWritten] } } := by
  rw [exec_mstep_of_phase hu (by simp [hp]), mainlineBody, hp]
  simp only [phaseW4, guarded, readRegister_ok_iff.mpr hn]
  rfl

/-- R163 to R166: from W2 with room the WRITE completes in three mainline steps, its operand pushed. -/
theorem runTrace_write_of_room {d : Byte} (hp : s.m.phase = .w2) (hb : s.m.b = some d)
    (ht : s.tx.tail < s.cfg.capacity) (hn : advance s.cfg s.tx.tail ≠ s.tx.head) :
    runTrace [.mstep, .mstep, .mstep] s = .next { s with
      tx := ⟨Memory.store s.tx.buf s.tx.tail d, s.tx.head, advance s.cfg s.tx.tail⟩
      txie := true
      m := { s.m with nt := some (advance s.cfg s.tx.tail), res := some respWritten, phase := .idle }
      ghost := { s.ghost with respLog := s.ghost.respLog ++ [respWritten] } } := by
  rw [runTrace_cons_of_next (exec_mstep_w2_of_room hu hp hn),
    runTrace_cons_of_next (exec_mstep_w3 (by exact hu) (by rfl) (by exact hb) (by exact ht)),
    runTrace_cons_of_next (exec_mstep_w4 (by exact hu) (by rfl) (by rfl))]
  rfl

end Phases

/-- A WRITE in progress has its operand latched (R28, R96). -/
theorem LogsFit.operand {s : State} (hs : LogsFit s) (hw : writing s.m.phase = true) : ∃ d, s.m.b = some d := by
  obtain ⟨-, hcmd⟩ := hs
  cases hp : s.m.phase with
  | w1 | w2 | w3 | w4 =>
    rw [hp] at hcmd
    obtain ⟨-, i, -, -, -, hb⟩ := hcmd
    exact ⟨dataOf i, hb⟩
  | _ => rw [hp] at hw; cases hw

/-- R283 (e): a buffer of the invariants that is not empty has a byte at its head. -/
theorem Invariants.exists_tx_head_byte {s : State} (hs : Invariants s) (hn : s.tx.head ≠ s.tx.tail) :
    ∃ v, Memory.lookup s.tx.buf s.tx.head = some v := by
  obtain ⟨-, -, hh, ht⟩ := hs.indices
  obtain ⟨-, hslots, -, -⟩ := hs.present
  exact Option.isSome_iff_exists.mp (hslots _ (head_occupied s.cfg hh ht hn))

/-- R283 (e): hardware that is not ready has a byte in flight. -/
theorem Invariants.exists_inflight_byte {s : State} (hs : Invariants s) (hr : s.line.txReady = false) :
    ∃ w, s.line.txData = some w := by
  obtain ⟨-, -, -, hflight⟩ := hs.present
  exact Option.isSome_iff_exists.mp (hflight hr)

/-- Settles O26: the full buffer is not empty, so it is armed and its head holds a byte; LINE_TX makes the hardware
ready, ISR_TX pops the byte and leaves room, and the WRITE pushes its operand. -/
theorem spinIsReleasedByTheHandler : Obligations.SpinIsReleasedByTheHandler := by
  intro s hs hp href hg hr hfull
  obtain ⟨-, -, hh, ht⟩ := hs.inv.indices
  replace hfull : advance s.cfg s.tx.tail = s.tx.head := hfull
  have hne : s.tx.head ≠ s.tx.tail := hfull ▸ advance_ne s.cfg ht
  have hroom : advance s.cfg s.tx.tail ≠ advance s.cfg s.tx.head := by
    rw [hfull]
    exact (advance_ne s.cfg hh).symm
  obtain ⟨v, hv⟩ := hs.inv.exists_tx_head_byte hne
  obtain ⟨w, hw⟩ := hs.inv.exists_inflight_byte hr
  obtain ⟨d, hd⟩ := hs.logs.operand (by rw [hp]; rfl)
  have hf := hs.inv.noFault
  have hx : s.txie = true := hs.inv.armed.mpr hne
  have hrelease := runTrace_lineTx_isrTx hf hg hx hr hw hne hh hv [.mstep, .mstep, .mstep]
  have hu : unmarked s = true := unmarked_iff.mpr ⟨hf, href⟩
  rw [runTrace_write_of_room (by exact hu) (by exact hp) (by exact hd) (by exact ht) (by exact hroom)] at hrelease
  refine ⟨_, hrelease, rfl, rfl, rfl, rfl, ?_⟩
  rw [hd]
  exact ringContent_pop_push s.cfg hh ht hne hroom hv d

end Sys2Proof.Machine

/-! The phases of WRITE on their own, and WRITE to completion (spec/43_write_api.md R161 to R166, R169). -/
namespace Sys2Proof.Machine

section Phases
variable {s : State} (hu : unmarked s = true)
include hu

/-- R161: the fast path answers the command, the byte going to the hardware under the guard. -/
theorem exec_mstep_w1_of_fast {d : Byte} (hp : s.m.phase = .w1) (hb : s.m.b = some d) (hn : s.tx.head = s.tx.tail)
    (hr : s.line.txReady = true) :
    exec .mstep s = .next { s with
      line := { s.line with txData := some d, txReady := false }
      m := { s.m with res := some respWritten, phase := .idle }
      ghost := { s.ghost with respLog := s.ghost.respLog ++ [respWritten] } } := by
  have hfast : (ringEmpty .txbuf { s with gie := false } && s.line.txReady) = true := by
    simp [ringEmpty, ringOf, hn, hr]
  rw [exec_mstep_of_phase hu (by simp [hp]), mainlineBody, hp]
  simp only [phaseW1, guarded, hfast, if_true, readRegister_ok_iff.mpr hb]
  rw [lineWrite_of_ready (by exact hr)]
  rfl

/-- R162: off the fast path the guarded test changes only the phase. -/
theorem exec_mstep_w1_of_slow (hp : s.m.phase = .w1) (hslow : ¬ (s.tx.head = s.tx.tail ∧ s.line.txReady = true)) :
    exec .mstep s = .next { s with m := { s.m with phase := .w2 } } := by
  have hfast : (ringEmpty .txbuf { s with gie := false } && s.line.txReady) = false := by
    simpa [ringEmpty, ringOf, Bool.and_eq_false_iff, not_and_or] using hslow
  rw [exec_mstep_of_phase hu (by simp [hp]), mainlineBody, hp]
  simp only [phaseW1, guarded, hfast]
  rfl

/-- R163: on a full buffer the candidate tail is latched and the mainline stays. -/
theorem exec_mstep_w2_of_full (hp : s.m.phase = .w2) (hn : advance s.cfg s.tx.tail = s.tx.head) :
    exec .mstep s = .next { s with m := { s.m with nt := some (advance s.cfg s.tx.tail) } } := by
  rw [exec_mstep_of_phase hu (by simp [hp]), mainlineBody, hp]
  simp only [phaseW2, hn, if_true, ← hp]
  rfl

end Phases

/-- Settles O19, by the two paths of the guarded test; on the fast path `TX` is empty, so it is not armed. -/
theorem writeFastPathTest : Obligations.WriteFastPathTest := by
  intro s d hp hu hb
  refine ⟨fun ⟨hn, hr⟩ => ⟨exec_mstep_w1_of_fast hu hp hb hn hr, fun harmed => ?_⟩, exec_mstep_w1_of_slow hu hp⟩
  exact Bool.eq_false_iff.mpr fun hx => harmed.mp hx hn

/-- Settles O20: the spin writes only `M.nt`, and with the value a second spin writes again. -/
theorem writeSpinTest : Obligations.WriteSpinTest := by
  intro s hp hu
  refine ⟨fun hfull => ?_, exec_mstep_w2_of_room hu hp⟩
  have hspin := exec_mstep_w2_of_full hu hp hfull
  refine ⟨hspin, fun t ht => ?_⟩
  obtain rfl := Host.Outcome.next.inj (hspin.symm.trans ht)
  exact exec_mstep_w2_of_full (by exact hu) (by exact hp) (by exact hfull)

/-- Settles O21, by the law of `Memory.store`; the slot at the tail is outside the occupied range. -/
theorem writeStores : Obligations.WriteStores := by
  intro s d hp hu hb htail hhead
  exact ⟨tail_not_occupied hhead htail, _, exec_mstep_w3 hu hp hb htail,
    fun a => Memory.lookup_store s.tx.buf s.tx.tail a d, rfl⟩

/-- Settles O22: the commit leaves `GIE` and the ready condition, and has armed `TXIE`. -/
theorem writeCommits : Obligations.WriteCommits := by
  intro s n hp hu hn
  obtain ⟨hf, -⟩ := unmarked_iff.mp hu
  refine ⟨_, exec_mstep_w4 hu hp hn, rfl, fun hg hr => isrTxEnabled_iff.mpr ⟨hf, hg, rfl, hr⟩, fun hc => ?_⟩
  obtain ⟨hnt, -⟩ := hc (.inr hp)
  exact Option.some.inj (hn.symm.trans hnt)

theorem unmarked_of_cmdReady {s : State} (hs : cmdReady s = true) : unmarked s = true := by
  obtain ⟨hf, hr, -⟩ := cmdReady_iff.mp hs
  exact unmarked_iff.mpr ⟨hf, hr⟩

/-- R96: after INIT a WRITE on the ready port is latched, W1 next. -/
theorem exec_write_of_ready {s : State} {d : Byte} (hs : cmdReady s = true) (hi : s.inited = true) :
    exec (.write d) s = .next { s with
      m := { s.m with b := some d, pc := s.m.pc + 1, phase := .w1 }
      ghost := { s.ghost with wrLog := s.ghost.wrLog ++ [d] }
      cmdLog := s.cmdLog ++ [encode (.write d)] } :=
  exec_command_accepted rfl hs (by rw [hi]; rfl)

/-- Settles O23: the issue latches the operand, and W1 takes the fast path. -/
theorem writeCompletesFast : Obligations.WriteCompletesFast := by
  intro s d hs hi hn hr
  have hu := unmarked_of_cmdReady hs
  rw [runTrace_cons_of_next (exec_write_of_ready hs hi),
    runTrace_cons_of_next (exec_mstep_w1_of_fast (by exact hu) (by rfl) (by rfl) (by exact hn) (by exact hr))]
  rfl

/-- Settles O24: the issue latches the operand, W1 leaves for the slow path, and from W2 there is room. -/
theorem writeCompletesBuffered : Obligations.WriteCompletesBuffered := by
  intro s d hs hi htail hslow hroom
  have hu := unmarked_of_cmdReady hs
  have hrun := runTrace_cons_of_next (exec_write_of_ready (d := d) hs hi) [.mstep, .mstep, .mstep, .mstep]
  rw [runTrace_cons_of_next (exec_mstep_w1_of_slow (by exact hu) (by rfl) (by exact hslow)),
    runTrace_write_of_room (by exact hu) (by rfl) (by rfl) (by exact htail) (by exact hroom)] at hrun
  exact ⟨_, hrun, fun a => Memory.lookup_store s.tx.buf s.tx.tail a d, rfl⟩

end Sys2Proof.Machine

/-! A WRITE that spins on a full buffer with the interrupts off (spec/43_write_api.md R172). -/
namespace Sys2Proof.Machine

/-- A trace that has a next state begins with a step that has one (R103). -/
theorem runTrace_cons_next {i : Instr} {rest : List Instr} {s t : State} (h : runTrace (i :: rest) s = .next t) :
    ∃ u, exec i s = .next u ∧ runTrace rest u = .next t := by
  cases hexec : exec i s with
  | next u => exact ⟨u, rfl, runTrace_cons_of_next hexec rest ▸ h⟩
  | fault | refused => simp [runTrace, hexec] at h

/-- What every operation keeps, every trace keeps. -/
theorem runTrace_keeps {P : State → Prop} (hstep : ∀ {i s t}, P s → exec i s = .next t → P t) {tr : List Instr}
    {s t : State} (hs : P s) (h : runTrace tr s = .next t) : P t := by
  induction tr generalizing s with
  | nil => cases h; exact hs
  | cons i rest ih =>
    obtain ⟨u, hexec, hrest⟩ := runTrace_cons_next h
    exact ih (hstep hs hexec) hrest

/-- The hang a state `s₀` in W2 leads into: the spin goes on, and no byte and no response comes of it. -/
structure HangsAs (s₀ s : State) : Prop where
  /-- The mainline is at the full test. -/
  phase : s.m.phase = .w2
  /-- No handler can be taken. -/
  gie : s.gie = false
  /-- The test finds `TX` full. -/
  full : advance s.cfg s.tx.tail = s.tx.head
  /-- The buffer is as before. -/
  tx : s.tx = s₀.tx
  /-- No command has completed. -/
  respLog : s.ghost.respLog = s₀.ghost.respLog

/-- R172: with `GIE = 0` no handler is enabled, so nothing moves `TX.head`; the mainline's own step on the full buffer
only spins, and the line hardware reaches no part of the hang. -/
theorem HangsAs.transition {s₀ s t : State} {i : Instr} (hs : HangsAs s₀ s) (h : Transition s i t) :
    HangsAs s₀ t := by
  obtain ⟨hphase, hgie, hfull, htx, hresp⟩ := hs
  cases h with
  | raised | overrun | arrive | depart => exact ⟨hphase, hgie, hfull, htx, hresp⟩
  | spin => exact ⟨rfl, hgie, hfull, htx, hresp⟩
  | room _ _ hroom => exact absurd hfull hroom
  | drop he | receive he => simp [isrRxEnabled_iff, hgie] at he
  | transmit he => simp [isrTxEnabled_iff, hgie] at he
  | presented _ hp => simp [hphase] at hp
  | issued hp | operand hp | n1 hp | s1 hp | k1 hp | fast hp | slow hp | store hp | commit hp | readEmpty hp
  | readSome hp | latch hp | deliver hp | avail hp => simp [hphase] at hp

/-- Settles O25, by induction over the trace: every operation keeps the hang. -/
theorem writeHangsWithInterruptsOff : Obligations.WriteHangsWithInterruptsOff := by
  intro s hp hg hfull tr t h
  have hstep {i : Instr} {u v : State} (hu : HangsAs s u) (hexec : exec i u = .next v) : HangsAs s v :=
    hu.transition (exec_cases hexec).2
  obtain ⟨hphase, hgie, -, htx, hresp⟩ := runTrace_keeps hstep ⟨hp, hg, hfull, rfl, rfl⟩ h
  exact ⟨hphase, hgie, htx, hresp⟩

end Sys2Proof.Machine

/-! The phases of READ, and the single phases of INIT, GIE_SET, GIE_CLR and AVAIL, on their own; READ and AVAIL to
completion (spec/44_read_api.md R181 to R187, spec/46_init_and_line_interface.md R212 to R214). -/
namespace Sys2Proof.Machine

section Phases
variable {s : State} (hu : unmarked s = true)
include hu

/-- A phase in progress whose body answers takes the mainline to that answer. -/
theorem exec_mstep_of_body {t : State} (hp : s.m.phase ≠ .idle) (hb : mainlineBody s = .ok t) :
    exec .mstep s = .next t := by
  rw [exec_mstep_of_phase hu hp, hb]
  rfl

/-- R212: INIT sets `RXIE` and `INITED` and answers. -/
theorem exec_mstep_n1 (hp : s.m.phase = .n1) :
    exec .mstep s = .next (respond respDone { s with rxie := true, inited := true }) :=
  exec_mstep_of_body hu (by simp [hp]) (by rw [mainlineBody, hp]; rfl)

/-- R213: GIE_SET sets `GIE` and answers. -/
theorem exec_mstep_s1 (hp : s.m.phase = .s1) : exec .mstep s = .next (respond respDone { s with gie := true }) :=
  exec_mstep_of_body hu (by simp [hp]) (by rw [mainlineBody, hp]; rfl)

/-- R214: GIE_CLR clears `GIE` and answers. -/
theorem exec_mstep_k1 (hp : s.m.phase = .k1) : exec .mstep s = .next (respond respDone { s with gie := false }) :=
  exec_mstep_of_body hu (by simp [hp]) (by rw [mainlineBody, hp]; rfl)

/-- R187: AVAIL answers the count of `RX`. -/
theorem exec_mstep_a1 (hp : s.m.phase = .a1) :
    exec .mstep s = .next (respond (countWord (count .rxbuf s)) s) :=
  exec_mstep_of_body hu (by simp [hp]) (by rw [mainlineBody, hp]; rfl)

/-- R183: a READ of an empty buffer answers `NONE`. -/
theorem exec_mstep_r1_of_empty (hp : s.m.phase = .r1) (hn : s.rx.head = s.rx.tail) :
    exec .mstep s = .next (respond respNone s) :=
  exec_mstep_of_body hu (by simp [hp]) (by rw [mainlineBody, hp]; simp [phaseR1, ringEmpty, hn])

/-- R183: a READ of a buffer that is not empty goes on to the slot. -/
theorem exec_mstep_r1_of_nonempty (hp : s.m.phase = .r1) (hn : s.rx.head ≠ s.rx.tail) :
    exec .mstep s = .next (setPhase .r2 s) :=
  exec_mstep_of_body hu (by simp [hp]) (by rw [mainlineBody, hp]; simp [phaseR1, ringEmpty, hn])

/-- R184: the byte of the slot `RX.head` is latched. -/
theorem exec_mstep_r2 {v : Byte} (hp : s.m.phase = .r2) (hh : s.rx.head < s.cfg.capacity)
    (hv : Memory.lookup s.rx.buf s.rx.head = some v) :
    exec .mstep s = .next { s with m := { s.m with v := some v, phase := .r3 } } := by
  have hread : memRead .rxbuf s.rx.head s = .ok v := memRead_ok_iff.mpr ⟨hh, hv⟩
  exact exec_mstep_of_body hu (by simp [hp]) (by rw [mainlineBody, hp]; simp only [phaseR2, hread])

/-- R185: `RX.head` advances and the latched byte is the answer. -/
theorem exec_mstep_r3 {v : Byte} (hp : s.m.phase = .r3) (hv : s.m.v = some v) :
    exec .mstep s = .next (respond (zext16 v) { s with rx := { s.rx with head := advance s.cfg s.rx.head } }) :=
  exec_mstep_of_body hu (by simp [hp])
    (by rw [mainlineBody, hp]; simp only [phaseR3, readRegister_ok_iff.mpr hv])

end Phases

/-- Settles O16, by the four phases' steps; the count is R123's by definition. -/
theorem singlePhaseCommandsComplete : Obligations.SinglePhaseCommandsComplete :=
  fun _ hu => ⟨exec_mstep_n1 hu, exec_mstep_s1 hu, exec_mstep_k1 hu, exec_mstep_a1 hu⟩

/-- R283 (e): a receive buffer of the invariants that is not empty has a byte at its head. -/
theorem Invariants.exists_rx_head_byte {s : State} (hs : Invariants s) (hn : s.rx.head ≠ s.rx.tail) :
    ∃ v, Memory.lookup s.rx.buf s.rx.head = some v := by
  obtain ⟨hh, ht, -, -⟩ := hs.indices
  obtain ⟨hslots, -, -, -⟩ := hs.present
  exact Option.isSome_iff_exists.mp (hslots _ (head_occupied s.cfg hh ht hn))

/-- Settles O28: past the empty test the buffer is not empty, so its head holds a byte and is not the slot `RX.tail`
that ISR_RX may store into. -/
theorem readTestsAndLatches : Obligations.ReadTestsAndLatches := by
  intro s hu
  refine ⟨exec_mstep_r1_of_empty hu, exec_mstep_r1_of_nonempty hu, fun hp _ => exec_mstep_r2 hu hp, fun hp hs => ?_⟩
  obtain ⟨hreading, -⟩ := hs.reading
  have hn : s.rx.head ≠ s.rx.tail := hreading (.inl hp)
  refine ⟨hs.inv.exists_rx_head_byte hn, fun t hexec => ?_⟩
  obtain ⟨hhead, hslots, -⟩ := receiveHandlerFrame s t hexec
  exact ⟨hhead, hslots _ hn⟩

/-- Settles O29, by the step of phase R3. -/
theorem readDeliversTheByte : Obligations.ReadDeliversTheByte :=
  fun _ _ hp hu hv => exec_mstep_r3 hu hp hv

/-- Settles O30: the issue enters R1, whose empty test answers, or leads through the latch of R2 to R3's answer. -/
theorem readCompletes : Obligations.ReadCompletes := by
  intro s hs hi
  have hu := unmarked_of_cmdReady hs
  obtain ⟨-, -, hread, -⟩ := commandsAreLatched s hs
  have hissue := runTrace_cons_of_next (hread hi)
  refine ⟨fun hn => ?_, fun hn v hh hv => ?_⟩
  · rw [hissue, runTrace_cons_of_next (exec_mstep_r1_of_empty (by exact hu) (by rfl) (by exact hn))]
    rfl
  · rw [hissue, runTrace_cons_of_next (exec_mstep_r1_of_nonempty (by exact hu) (by rfl) (by exact hn)),
      runTrace_cons_of_next (exec_mstep_r2 (by exact hu) (by rfl) (by exact hh) (by exact hv)),
      runTrace_cons_of_next (exec_mstep_r3 (by exact hu) (by rfl) (by rfl))]
    rfl

/-- Settles O31: the issue enters A1, which answers the count. -/
theorem availCompletes : Obligations.AvailCompletes := by
  intro s hs hi
  have hu := unmarked_of_cmdReady hs
  obtain ⟨-, -, -, havail, -⟩ := commandsAreLatched s hs
  rw [runTrace_cons_of_next (havail hi), runTrace_cons_of_next (exec_mstep_a1 (by exact hu) (by rfl))]
  rfl

/-- R188 (a): with legal indices ISR_RX's push appends to the content of `RX`, and but for a READ's delivery no other
transition touches `RX`. -/
theorem Transition.content_rx_prefix {s t : State} {i : Instr} (h : Transition s i t) (hs : IndicesLegal s)
    (hd : ¬ (i = .mstep ∧ s.m.phase = .r3)) : content .rxbuf s <+: content .rxbuf t := by
  cases h with
  | deliver hp => exact absurd ⟨rfl, hp⟩ hd
  | receive _ _ hroom htail =>
    obtain ⟨hhead, -, -, -⟩ := hs
    exact ⟨_, (ringContent_push s.cfg hhead htail hroom _).symm⟩
  | presented | issued => rw [issue_frame]; exact List.prefix_rfl
  | _ => exact List.prefix_rfl

/-- Settles O56, by the inversion of a step. -/
theorem bufferedBytesStayUntilRead : Obligations.BufferedBytesStayUntilRead := by
  intro i s t hs hexec hd
  obtain ⟨-, h⟩ := exec_cases hexec
  exact h.content_rx_prefix hs.inv.indices hd

end Sys2Proof.Machine

/-! Decimal text: the digits that WRITE_INT and WRITE_FLOAT write, and their value
(spec/45_formatted_output.md R194 to R199). -/
namespace Sys2Proof.Machine

/-- The value of a decimal text, read from its digits, most significant first. -/
def textValue (ds : List Byte) : Nat := ds.foldl (fun n d => n * 10 + (d.toNat - 0x30)) 0

@[simp] theorem toNat_digitByte (n : Nat) : (digitByte n).toNat = 0x30 + n % 10 := by
  rw [digitByte, BitVec.toNat_ofNat]
  omega

@[simp] theorem digitByte_mod_ten (n : Nat) : digitByte (n % 10) = digitByte n := by
  simp [digitByte]

theorem digitByte_isDigit (n : Nat) : 0x30 ≤ (digitByte n).toNat ∧ (digitByte n).toNat ≤ 0x39 := by
  rw [toNat_digitByte]
  omega

theorem digitByte_eq_0x30_iff (n : Nat) : digitByte n = 0x30 ↔ n % 10 = 0 := by
  rw [← BitVec.toNat_inj, toNat_digitByte]
  simp

theorem textValue_concat_digitByte (ds : List Byte) (n : Nat) :
    textValue (ds ++ [digitByte n]) = textValue ds * 10 + n % 10 := by
  simp [textValue]

/-- A text of the digits of Mathlib's `Nat.digits`, least significant first, has the value `Nat.ofDigits` gives them. -/
theorem textValue_reverse_map_digitByte {l : List Nat} (h : ∀ d ∈ l, d < 10) :
    textValue (l.reverse.map digitByte) = Nat.ofDigits 10 l := by
  induction l with
  | nil => rfl
  | cons d l ih =>
    obtain ⟨hd, hl⟩ := List.forall_mem_cons.mp h
    rw [List.reverse_cons, List.map_append, List.map_singleton, textValue_concat_digitByte, ih hl, Nat.ofDigits_cons,
      Nat.mod_eq_of_lt hd]
    omega

/-- R194: with fuel enough, the loop puts the digits of a positive number before those it has. -/
theorem digitsLoop_eq_digits {fuel m : Nat} (hm : 0 < m) (hfuel : m < fuel) (ds : List Byte) :
    digitsLoop fuel m ds = (Nat.digits 10 m).reverse.map digitByte ++ ds := by
  induction fuel generalizing m ds with
  | zero => omega
  | succ fuel ih =>
    rw [Nat.digits_def' (by decide) hm, digitsLoop]
    split
    case isTrue hlast => simp [hlast]
    case isFalse hmore => simp [ih (Nat.pos_of_ne_zero hmore) (by omega)]

theorem decNat_zero : decNat 0 = [0x30] := rfl

theorem decNat_of_pos {m : Nat} (hm : 0 < m) : decNat m = (Nat.digits 10 m).reverse.map digitByte := by
  rw [decNat, digitsLoop_eq_digits hm m.lt_succ_self, List.append_nil]

theorem decNat_ne_nil (m : Nat) : decNat m ≠ [] := by
  rcases m.eq_zero_or_pos with rfl | hm
  · simp [decNat_zero]
  · simpa [decNat_of_pos hm, Nat.digits_eq_nil_iff_eq_zero] using hm.ne'

theorem decNat_isDigit {m : Nat} {d : Byte} (hd : d ∈ decNat m) : 0x30 ≤ d.toNat ∧ d.toNat ≤ 0x39 := by
  rcases m.eq_zero_or_pos with rfl | hm
  · rw [List.mem_singleton.mp hd]
    decide
  · rw [decNat_of_pos hm] at hd
    obtain ⟨n, -, rfl⟩ := List.mem_map.mp hd
    exact digitByte_isDigit n

theorem textValue_decNat (m : Nat) : textValue (decNat m) = m := by
  rcases m.eq_zero_or_pos with rfl | hm
  · rfl
  · rw [decNat_of_pos hm, textValue_reverse_map_digitByte fun _ => Nat.digits_lt_base (by decide), Nat.ofDigits_digits]

/-- R194: no leading zero, for the most significant of a positive number's digits is not 0. -/
theorem head?_decNat_ne_0x30 {m : Nat} (hm : 0 < m) : (decNat m).head? ≠ some 0x30 := by
  have hdigits : Nat.digits 10 m ≠ [] := Nat.digits_ne_nil_iff_ne_zero.mpr hm.ne'
  have hlt : (Nat.digits 10 m).getLast hdigits < 10 := Nat.digits_lt_base (by decide) (List.getLast_mem hdigits)
  rw [decNat_of_pos hm, List.head?_map, List.head?_reverse, List.getLast?_eq_getLast_of_ne_nil hdigits, Option.map_some,
    ne_eq, Option.some_inj, digitByte_eq_0x30_iff, Nat.mod_eq_of_lt hlt]
  exact Nat.getLast_digit_ne_zero 10 hm.ne'

/-- Settles O57: the text is `decNat` of the magnitude after the sign. -/
theorem decimalTextDenotesTheValue : Obligations.DecimalTextDenotesTheValue := by
  intro v
  refine ⟨decNat v.natAbs, rfl, fun _ => decNat_isDigit, textValue_decNat v.natAbs, decNat_ne_nil _, fun hhead => ?_⟩
  rcases v.natAbs.eq_zero_or_pos with hzero | hpos
  · exact ⟨Int.natAbs_eq_zero.mp hzero, by rw [hzero, decNat_zero]⟩
  · exact absurd hhead (head?_decNat_ne_0x30 hpos)

theorem length_decNat_mono {m n : Nat} (h : m ≤ n) : (decNat m).length ≤ (decNat n).length := by
  rcases m.eq_zero_or_pos with rfl | hm
  · exact List.length_pos_of_ne_nil (decNat_ne_nil n)
  · simpa [decNat_of_pos hm, decNat_of_pos (hm.trans_le h)] using Nat.le_length_digits_le 10 m n h

theorem length_dec_le (v : Int) : (dec v).length ≤ (decNat v.natAbs).length + 1 := by
  rw [dec]
  split <;> simp [Nat.add_comm]

theorem natAbs_le_of_intRange {cfg : Config} {v : Int} (h : intMin cfg ≤ v ∧ v ≤ intMax cfg) :
    v.natAbs ≤ 2 ^ (intBits cfg - 1) := by
  obtain ⟨hmin, hmax⟩ := h
  unfold intMin at hmin
  unfold intMax at hmax
  omega

theorem intBytes_of_range {cfg : Config} {v : Int} (h : intMin cfg ≤ v ∧ v ≤ intMax cfg) :
    intBytes cfg v = .ok (dec v) := if_pos h

theorem intBytes_of_not_range {cfg : Config} {v : Int} (h : ¬ (intMin cfg ≤ v ∧ v ≤ intMax cfg)) :
    intBytes cfg v = .error .operand := if_neg h

theorem scratchBytes_of_w16 {cfg : Config} (h : cfg.intw = .w16) : scratchBytes cfg = 7 := by
  simp [scratchBytes, intBits_of_w16 h, decNat_of_pos]

theorem scratchBytes_of_w32 {cfg : Config} (h : cfg.intw = .w32) : scratchBytes cfg = 12 := by
  simp [scratchBytes, intBits_of_w32 h, decNat_of_pos]

/-- R196: the magnitude is at most that of the minimum, whose text the buffer is sized for. -/
theorem length_dec_lt_scratchBytes {cfg : Config} {v : Int} (h : intMin cfg ≤ v ∧ v ≤ intMax cfg) :
    (dec v).length + 1 ≤ scratchBytes cfg :=
  calc (dec v).length + 1
    _ ≤ (decNat v.natAbs).length + 1 + 1 := Nat.succ_le_succ (length_dec_le v)
    _ ≤ (decNat (2 ^ (intBits cfg - 1))).length + 1 + 1 := by
      have hlength := length_decNat_mono (natAbs_le_of_intRange h)
      omega

/-- Settles O58, by the length of the longest text in range, the minimum's. -/
theorem integerTextFitsTheScratchBuffer : Obligations.IntegerTextFitsTheScratchBuffer := fun _ _ =>
  ⟨scratchBytes_of_w16, scratchBytes_of_w32, fun h => ⟨intBytes_of_range h, length_dec_lt_scratchBytes h⟩,
    intBytes_of_not_range⟩

section Fraction
variable (k f : Nat)

@[simp] theorem length_fractionDigits : (fractionDigits k f).length = k := by
  induction k with
  | zero => rfl
  | succ k ih => rw [fractionDigits, List.length_cons, ih]

theorem fractionDigits_isDigit {k f : Nat} {d : Byte} (hd : d ∈ fractionDigits k f) :
    0x30 ≤ d.toNat ∧ d.toNat ≤ 0x39 := by
  induction k with
  | zero => simp [fractionDigits] at hd
  | succ k ih =>
    rcases List.mem_cons.mp hd with rfl | hrest
    · exact digitByte_isDigit _
    · exact ih hrest

/-- The last of the digits is that of the units. -/
theorem fractionDigits_succ_eq_concat : fractionDigits (k + 1) f = fractionDigits k (f / 10) ++ [digitByte f] := by
  induction k with
  | zero => simp [fractionDigits]
  | succ k ih => rw [fractionDigits, ih, fractionDigits, Nat.div_div_eq_div_mul, ← Nat.pow_succ', List.cons_append]

/-- R198: padded or not, a number of at most `k` digits keeps its value. -/
theorem textValue_fractionDigits {k f : Nat} (h : f < 10 ^ k) : textValue (fractionDigits k f) = f := by
  induction k generalizing f with
  | zero => exact (Nat.lt_one_iff.mp h).symm
  | succ k ih =>
    have hrest : f / 10 < 10 ^ k := Nat.div_lt_of_lt_mul (by rwa [← Nat.pow_succ'])
    rw [fractionDigits_succ_eq_concat, textValue_concat_digitByte, ih hrest, Nat.div_add_mod']

end Fraction

section Magnitude
variable (q : Rat)

theorem abs_eq_natAbs_div_den : |q| = (q.num.natAbs : Rat) / q.den := by
  rw [Rat.abs_def, Rat.divInt_eq_div]
  simp

/-- R197: `integerPart` is the floor of the magnitude. -/
theorem floor_abs_eq_integerPart : ⌊|q|⌋ = (integerPart q : Int) := by
  rw [abs_eq_natAbs_div_den, Rat.floor_natCast_div_natCast]
  rfl

theorem abs_sub_integerPart : |q| - integerPart q = ((q.num.natAbs % q.den : Nat) : Rat) / q.den := by
  have hden : (q.den : Rat) ≠ 0 := mod_cast q.den_nz
  have hsplit : (q.den * integerPart q + (q.num.natAbs % q.den : Nat) : Rat) = q.num.natAbs :=
    mod_cast Nat.div_add_mod q.num.natAbs q.den
  rw [abs_eq_natAbs_div_den, ← hsplit]
  field_simp
  ring

/-- R197, R199: `fractionPart` is the scaled fraction of the magnitude, truncated. -/
theorem floor_fraction_eq_fractionPart (p : Nat) : ⌊(|q| - ⌊|q|⌋) * 10 ^ p⌋ = (fractionPart q p : Int) := by
  have hscaled : (|q| - ⌊|q|⌋) * 10 ^ p = ((q.num.natAbs % q.den * 10 ^ p : Nat) : Rat) / q.den := by
    rw [floor_abs_eq_integerPart, Int.cast_natCast, abs_sub_integerPart, div_mul_eq_mul_div]
    push_cast
    rfl
  rw [hscaled, Rat.floor_natCast_div_natCast]
  rfl

theorem fractionPart_lt (p : Nat) : fractionPart q p < 10 ^ p :=
  Nat.div_lt_of_lt_mul (Nat.mul_lt_mul_of_pos_right (Nat.mod_lt _ q.den_pos) (by positivity))

end Magnitude

/-- The integer part of a magnitude is not negative, so only the upper bound of R193 can refuse it. -/
theorem integerPart_range_iff (cfg : Config) (q : Rat) :
    (intMin cfg ≤ integerPart q ∧ (integerPart q : Int) ≤ intMax cfg) ↔ ⌊|q|⌋ ≤ intMax cfg := by
  have hmin : intMin cfg ≤ 0 := by simp [intMin]
  rw [floor_abs_eq_integerPart]
  omega

/-- R197: the text of a finite operand in range. -/
theorem floatBytes_of_range {cfg : Config} {q : Rat} {p : Nat} (hp : p ≤ pmax cfg) (hq : ⌊|q|⌋ ≤ intMax cfg) :
    floatBytes cfg (.finite q) p = .ok ((if q < 0 then [0x2D] else []) ++ dec ⌊|q|⌋ ++
      (if p = 0 then [] else 0x2E :: fractionDigits p (fractionPart q p))) := by
  rw [floatBytes, if_neg (by omega), intBytes_of_range ((integerPart_range_iff cfg q).mpr hq), floor_abs_eq_integerPart]
  rcases p.eq_zero_or_pos with rfl | hpos
  · rfl
  · simp [hpos, hpos.ne']

theorem floatBytes_of_precision_gt {cfg : Config} {p : Nat} (q : Rat) (hp : p > pmax cfg) :
    floatBytes cfg (.finite q) p = .error .operand := if_pos hp

/-- R197: an integer part out of range is refused, whatever the precision. -/
theorem floatBytes_of_floor_gt {cfg : Config} {q : Rat} (p : Nat) (hq : ⌊|q|⌋ > intMax cfg) :
    floatBytes cfg (.finite q) p = .error .operand := by
  rw [floatBytes, intBytes_of_not_range ((integerPart_range_iff cfg q).not.mpr (by omega)), ite_self]

/-- Settles O59, by one lemma for the text and one for each reason to refuse. -/
theorem floatTextIsTruncatedAndPadded : Obligations.FloatTextIsTruncatedAndPadded := by
  refine ⟨fun cfg q p hp hq => ⟨fractionDigits p (fractionPart q p), floatBytes_of_range hp hq,
    length_fractionDigits p _, fun _ => fractionDigits_isDigit, ?_⟩, fun cfg x p hrefused => ?_⟩
  · rw [floor_fraction_eq_fractionPart]
    exact congrArg Nat.cast (textValue_fractionDigits (fractionPart_lt q p))
  · cases x with
    | nan | infinite => rfl
    | finite q =>
      rcases hrefused q rfl with hp | hq
      · exact floatBytes_of_precision_gt q hp
      · exact floatBytes_of_floor_gt p hq

end Sys2Proof.Machine

/-! GIE_SET and GIE_CLR to completion, and the line's transmit side
(spec/46_init_and_line_interface.md R213, R214, R218). -/
namespace Sys2Proof.Machine

/-- Two steps in a row are a trace of two. -/
theorem runTrace_pair_of_next {i j : Instr} {s t u : State} (hi : exec i s = .next t) (hj : exec j t = .next u) :
    runTrace [i, j] s = .next u := by
  rw [runTrace_cons_of_next hi, runTrace_cons_of_next hj]
  rfl

/-- R240: without a fault and with `GIE` set, ISR_RX is enabled exactly when `RXIE` is set and a byte waits. -/
theorem isrRxEnabled_iff_of_gie {s : State} (hf : s.fault = none) (hg : s.gie = true) :
    isrRxEnabled s = true ↔ s.rxie = true ∧ s.line.rxAvail = true := by
  simp [isrRxEnabled_iff, hf, hg]

/-- R240: and ISR_TX exactly when `TXIE` is set and the hardware is ready. -/
theorem isrTxEnabled_iff_of_gie {s : State} (hf : s.fault = none) (hg : s.gie = true) :
    isrTxEnabled s = true ↔ s.txie = true ∧ s.line.txReady = true := by
  simp [isrTxEnabled_iff, hf, hg]

/-- R240: with `GIE` clear ISR_RX is not enabled. -/
theorem isrRxEnabled_eq_false_of_gie {s : State} (hg : s.gie = false) : isrRxEnabled s = false := by
  simp [isrRxEnabled, hg]

/-- R240: with `GIE` clear ISR_TX is not enabled. -/
theorem isrTxEnabled_eq_false_of_gie {s : State} (hg : s.gie = false) : isrTxEnabled s = false := by
  simp [isrTxEnabled, hg]

/-- Settles O17: the issue enters S1, which sets `GIE`; there being no fault, each handler then waits for its request
alone. -/
theorem gieSetCompletes : Obligations.GieSetCompletes := by
  intro s hs
  have hu := unmarked_of_cmdReady hs
  obtain ⟨hf, -⟩ := unmarked_iff.mp hu
  obtain ⟨-, -, -, -, -, hissue⟩ := commandsAreLatched s hs
  exact ⟨_, runTrace_pair_of_next hissue (exec_mstep_s1 (by exact hu) rfl), rfl,
    isrRxEnabled_iff_of_gie hf rfl, isrTxEnabled_iff_of_gie hf rfl⟩

/-- Settles O18: the issue enters K1, which clears `GIE`; no handler is enabled, and neither request reads `GIE`. -/
theorem gieClrCompletes : Obligations.GieClrCompletes := by
  intro s hs
  have hu := unmarked_of_cmdReady hs
  obtain ⟨-, -, -, -, hissue, -⟩ := commandsAreLatched s hs
  exact ⟨_, runTrace_pair_of_next hissue (exec_mstep_k1 (by exact hu) rfl), rfl,
    isrRxEnabled_eq_false_of_gie rfl, isrTxEnabled_eq_false_of_gie rfl, rfl, rfl⟩

/-- R238: with the hardware ready `irq_tx` is `TXIE`. -/
theorem irqTx_of_ready {s : State} (hr : s.line.txReady = true) : irqTx s = s.txie := by
  simp [irqTx, hr]

/-- R218: with the hardware ready LINE_TX has no step. -/
theorem exec_lineTx_ne_next_of_ready {s : State} (hr : s.line.txReady = true) (t : State) :
    exec .lineTx s ≠ .next t := by
  intro h
  obtain ⟨-, he, -⟩ := agentStep_next h
  obtain ⟨-, hbusy⟩ := lineTxEnabled_iff.mp he
  exact Bool.false_ne_true (hbusy.symm.trans hr)

/-- Settles O37: the byte in flight leaves, and ready hardware requests where `TXIE` is set and has no further
LINE_TX. -/
theorem lineTransmits : Obligations.LineTransmits :=
  fun _ hf => ⟨fun _ hr hv => ⟨_, exec_lineTx_of_byte hf hr hv, rfl, fun hx => (irqTx_of_ready rfl).trans hx⟩,
    exec_lineTx_ne_next_of_ready, rfl⟩

end Sys2Proof.Machine

/-! The occupied slots and the content of a ring in the steps of a push and a pop (spec/40_ring_buffer.md R121 to R126,
spec/43_write_api.md R165, R166). -/
namespace Sys2Proof.Machine

/-- `advance` does not identify two indices. -/
theorem advance_injective (cfg : Config) {i j : Nat} (hi : i < cfg.capacity) (hj : j < cfg.capacity)
    (h : advance cfg i = advance cfg j) : i = j := by
  rw [advance_eq cfg hi, advance_eq cfg hj] at h
  split at h <;> split at h <;> omega

/-- Every occupied slot holds a byte (R283 (e)). -/
def SlotsFilled (c : Nat) (r : Ring) : Prop :=
  ∀ i ∈ occupied c r, (Memory.lookup r.buf i).isSome = true

theorem SlotsFilled.store {c : Nat} {r : Ring} (hs : SlotsFilled c r) (hh : r.head < c) (ht : r.tail < c) (v : Byte) :
    SlotsFilled c { r with buf := Memory.store r.buf r.tail v } := by
  intro i hi
  replace hi : i ∈ occupied c r := hi
  rw [Memory.lookup_store_other]
  · exact hs i hi
  · rintro rfl
    exact tail_not_occupied hh ht hi

theorem SlotsFilled.publish {cfg : Config} {r : Ring} (hs : SlotsFilled cfg.capacity r) (hh : r.head < cfg.capacity)
    (ht : r.tail < cfg.capacity) (hn : advance cfg r.tail ≠ r.head) {v : Byte}
    (hv : Memory.lookup r.buf r.tail = some v) :
    SlotsFilled cfg.capacity { r with tail := advance cfg r.tail } := by
  intro i hi
  rw [occupied_push cfg hh ht hn, List.mem_append, List.mem_singleton] at hi
  rcases hi with hi | rfl
  · exact hs i hi
  · simp [hv]

theorem SlotsFilled.pop {cfg : Config} {r : Ring} (hs : SlotsFilled cfg.capacity r) (hh : r.head < cfg.capacity)
    (ht : r.tail < cfg.capacity) (hn : r.head ≠ r.tail) :
    SlotsFilled cfg.capacity { r with head := advance cfg r.head } := by
  intro i hi
  refine hs i ?_
  rw [occupied_pop cfg hh ht hn r.buf]
  exact List.mem_cons_of_mem _ hi

/-- R165: the byte stored at `tail` is not published yet. -/
theorem ringContent_store_tail {c : Nat} {r : Ring} (hh : r.head < c) (ht : r.tail < c) (v : Byte) :
    ringContent c { r with buf := Memory.store r.buf r.tail v } = ringContent c r := by
  refine ringContent_congr rfl rfl fun i hi => Memory.lookup_store_other _ _ ?_
  rintro rfl
  exact tail_not_occupied hh ht hi

/-- R166: advancing `tail` publishes the byte of its slot. -/
theorem ringContent_publish (cfg : Config) {r : Ring} (hh : r.head < cfg.capacity) (ht : r.tail < cfg.capacity)
    (hn : advance cfg r.tail ≠ r.head) {v : Byte} (hv : Memory.lookup r.buf r.tail = some v) :
    ringContent cfg.capacity { r with tail := advance cfg r.tail } = ringContent cfg.capacity r ++ [v] := by
  unfold ringContent
  rw [occupied_push cfg hh ht hn, List.filterMap_append]
  simp [hv]

/-- R283 (d) follows from (a). -/
theorem IndicesLegal.countsBounded {s : State} (hs : IndicesLegal s) : CountsBounded s := by
  obtain ⟨hrxHead, hrxTail, htxHead, htxTail⟩ := hs
  exact ⟨Nat.le_sub_one_of_lt (ringCount_lt hrxHead hrxTail), Nat.le_sub_one_of_lt (ringCount_lt htxHead htxTail)⟩

end Sys2Proof.Machine

/-! The stages of a byte on its way out, and the logs of issue and response (spec/30_encoding.md R96, R100,
spec/20_memory.md R79). -/
namespace Sys2Proof.Machine

/-- A phase of WRITE is one of the operation code 2. -/
theorem writing_eq_true_iff {p : Phase} : writing p = true ↔ phaseOpcode p = some 2#4 := by
  cases p <;> decide

/-- R96: a command enters at a phase of its operation code, before any in which a slot is read, stored or published. -/
theorem firstPhase_opcodeOf {i : Instr} {p : Phase} (h : firstPhase (opcodeOf i) = some p) :
    phaseOpcode p = some (opcodeOf i) ∧ p ≠ .w3 ∧ p ≠ .w4 ∧ p ≠ .r2 ∧ p ≠ .r3 := by
  cases i <;> cases h <;> simp [phaseOpcode, opcodeOf]

/-- The state an accepted command leaves, by its operand and its operation code (R96). -/
theorem accept_encode (i : Instr) (p : Phase) (s : State) : accept (encode i) p s = { s with
    m := { s.m with b := some (dataOf i), pc := s.m.pc + 1, phase := p }
    ghost := { s.ghost with wrLog := if opcodeOf i = 2#4 then s.ghost.wrLog ++ [dataOf i] else s.ghost.wrLog }
    cmdLog := s.cmdLog ++ [encode i] } := by
  rw [accept, fieldsOf_encode]

theorem pendingWrite_of_not_writing {s : State} (hw : writing s.m.phase = false) : pendingWrite s = [] := by
  simp [pendingWrite, hw]

theorem pendingWrite_of_writing {s : State} {d : Byte} (hw : writing s.m.phase = true) (hd : s.m.b = some d) :
    pendingWrite s = [d] := by
  simp [pendingWrite, hw, hd]

theorem transmitOrder_iff_of_not_writing {s : State} (hw : writing s.m.phase = false) :
    TransmitOrder s ↔ s.ghost.wrLog = s.ghost.lineOut ++ inflight s ++ content .txbuf s := by
  rw [TransmitOrder, pendingWrite_of_not_writing hw, List.append_nil]

theorem transmitOrder_iff_of_writing {s : State} {d : Byte} (hw : writing s.m.phase = true) (hd : s.m.b = some d) :
    TransmitOrder s ↔ s.ghost.wrLog = s.ghost.lineOut ++ inflight s ++ content .txbuf s ++ [d] := by
  rw [TransmitOrder, pendingWrite_of_writing hw hd]

theorem inflight_of_ready {s : State} (hr : s.line.txReady = true) : inflight s = [] := by
  simp [inflight, hr]

theorem inflight_of_busy {s : State} {v : Byte} (hr : s.line.txReady = false) (hv : s.line.txData = some v) :
    inflight s = [v] := by
  simp [inflight, hr, hv]

theorem content_of_empty {sp : Space} {s : State} (hn : (ringOf sp s).head = (ringOf sp s).tail) : content sp s = [] :=
  ringContent_empty hn

/-- R100: the response of a READ that found a byte is not `NONE`. -/
theorem zext16_ne_respNone (v : Byte) : zext16 v ≠ respNone := by
  have hv := v.isLt
  intro h
  have hnat := congrArg BitVec.toNat h
  simp [zext16, respNone] at hnat
  omega

theorem setWidth_zext16 (v : Byte) : (zext16 v).setWidth 8 = v := by
  simp [zext16]

/-- The command log's last entry has no partner among as many responses as there are entries before it. -/
theorem zip_concat_left {ws rs : List Word} (h : ws.length = rs.length) (w : Word) :
    (ws ++ [w]).zip rs = ws.zip rs := by
  simpa using List.zip_append (l₂ := rs) (r₁ := [w]) (r₂ := []) h

/-- A command without its response has delivered nothing yet. -/
theorem delivered_of_issued {s t : State} {w : Word} (hlen : s.cmdLog.length = s.ghost.respLog.length)
    (hcmd : t.cmdLog = s.cmdLog ++ [w]) (hresp : t.ghost.respLog = s.ghost.respLog) : delivered t = delivered s := by
  rw [delivered, hcmd, hresp, zip_concat_left hlen, delivered]

/-- A response delivers its low byte where the command it answers is a READ that found one (R79). -/
theorem delivered_of_responded {s t : State} {w r : Word} (hlen : s.cmdLog.length = s.ghost.respLog.length + 1)
    (hlast : s.cmdLog.getLast? = some w) (hcmd : t.cmdLog = s.cmdLog)
    (hresp : t.ghost.respLog = s.ghost.respLog ++ [r]) :
    delivered t = delivered s ++ if w = encode .read ∧ r ≠ respNone then [r.setWidth 8] else [] := by
  obtain ⟨ws, hws⟩ := List.getLast?_eq_some_iff.mp hlast
  have hlen' : ws.length = s.ghost.respLog.length := by simpa [hws] using hlen
  rw [delivered, delivered, hcmd, hresp, hws, zip_concat_left hlen', List.zip_append hlen', List.filterMap_append]
  by_cases hread : w = encode .read ∧ r ≠ respNone <;> simp [hread]

theorem encode_eq_read_iff {i : Instr} : encode i = encode .read ↔ opcodeOf i = 3#4 := by
  constructor
  · intro h
    exact congrArg Fields.op ((fieldsOf_encode i).symm.trans (h ▸ fieldsOf_encode .read))
  · intro h
    cases i with
    | read => rfl
    | _ => cases h

/-- R100, R79: the response of a command delivers a byte exactly if its phase is one of READ and it is not `NONE`. -/
theorem LogsFit.delivered_respond {s u : State} {op : BitVec 4} (hs : LogsFit s) (hop : phaseOpcode s.m.phase = some op)
    (hcmd : u.cmdLog = s.cmdLog) (hresp : u.ghost.respLog = s.ghost.respLog) (r : Word) :
    delivered (respond r u) = delivered s ++ if op = 3#4 ∧ r ≠ respNone then [r.setWidth 8] else [] := by
  obtain ⟨-, hlog⟩ := hs
  rw [hop] at hlog
  obtain ⟨hlen, i, -, rfl, hlast, -⟩ := hlog
  simpa only [encode_eq_read_iff] using
    delivered_of_responded (t := respond r u) hlen hlast hcmd (by rw [respond_ghost, hresp])

/-- A response completes the command the logs have open. -/
theorem LogsFit.respond {s u : State} (hs : LogsFit s) (hop : phaseOpcode s.m.phase ≠ none)
    (hpc : u.m.pc = s.m.pc) (hcmd : u.cmdLog = s.cmdLog) (hresp : u.ghost.respLog = s.ghost.respLog) (r : Word) :
    LogsFit (respond r u) := by
  obtain ⟨hlen, hlog⟩ := hs
  obtain ⟨op, hop⟩ := Option.ne_none_iff_exists'.mp hop
  rw [hop] at hlog
  obtain ⟨hone, -⟩ := hlog
  exact ⟨by simpa [hpc, hcmd] using hlen, by simpa [phaseOpcode, hcmd, hresp] using hone⟩

end Sys2Proof.Machine

/-! Command issue keeps the invariants (spec/30_encoding.md R96, spec/70_reset_and_hazards.md R283). -/
namespace Sys2Proof.Machine

/-- The invariants say nothing of the schedule, and of the refusal mark only that the mainline is in phase IDLE. -/
theorem Working.with_schedule_and_refusal {s : State} (hs : Working s) (tr : List Word) (n : Nat)
    (k : Option RefusalMark) (hk : k ≠ none → s.m.phase = .idle) :
    Working { s with trace := tr, draws := n, refused := k } := by
  obtain ⟨hinv, hlogs, hstored, hreading, -, hbefore⟩ := hs
  exact ⟨⟨hinv.noFault, hinv.indices, hinv.armed, hinv.candidate, hinv.counts, hinv.present, hinv.rxieInited,
    hinv.quiet, hinv.transmitOrder, hinv.receiveOrder⟩, hlogs, hstored, hreading, hk, hbefore⟩

theorem Working.refuse {s : State} (hs : Working s) (hp : s.m.phase = .idle) (k : RefusalMark) :
    Working (refuseMark k s) :=
  hs.with_schedule_and_refusal s.trace s.draws (some k) fun _ => hp

/-- An accepted word: a command, entered at its first phase, in its place in the run (R96). -/
theorem issueCheck_ok_command {w : Word} {b : Bool} {p : Phase} (h : issueCheck (fieldsOf w) b = .ok p) :
    ∃ i, isCommand i = true ∧ encode i = w ∧ firstPhase (opcodeOf i) = some p ∧
      (b = false → p ∈ [Phase.n1, .s1, .k1]) := by
  obtain ⟨i, hi, rfl, hp⟩ := issueCheck_ok_encode h
  refine ⟨i, hi, rfl, hp, fun hb => ?_⟩
  obtain ⟨-, -, -, hafter, -⟩ := issueCheck_ok h
  rw [fieldsOf_encode] at hafter
  cases i with
  | write | read | avail => simp [opcodeOf, hb] at hafter
  | init | gieClr | gieSet => cases hp; simp
  | _ => cases hi

section Accept
variable {s : State} {i : Instr} {p : Phase} (hs : Working s) (hidle : s.m.phase = .idle)
include hs hidle

theorem Working.receiveOrder_accept : ReceiveOrder (accept (encode i) p s) := by
  obtain ⟨-, hlog⟩ := hs.logs
  rw [hidle] at hlog
  have hlen : s.cmdLog.length = s.ghost.respLog.length := hlog
  rw [ReceiveOrder, delivered_of_issued (t := accept (encode i) p s) hlen rfl rfl]
  exact hs.inv.receiveOrder

variable (hp : firstPhase (opcodeOf i) = some p)
include hp

/-- R79: the operand of an accepted WRITE is the byte that is pending. -/
theorem Working.transmitOrder_accept : TransmitOrder (accept (encode i) p s) := by
  have horder := hs.inv.transmitOrder
  rw [TransmitOrder, pendingWrite_of_not_writing (by rw [hidle]; rfl), List.append_nil] at horder
  obtain ⟨hop, -⟩ := firstPhase_opcodeOf hp
  have hw : writing p = true ↔ opcodeOf i = 2#4 := by rw [writing_eq_true_iff, hop, Option.some.injEq]
  rw [accept_encode]
  simp only [TransmitOrder, pendingWrite, hw, horder]
  split <;> simp [inflight, content]

theorem Working.logsFit_accept (hi : isCommand i = true) : LogsFit (accept (encode i) p s) := by
  obtain ⟨hpc, hlog⟩ := hs.logs
  rw [hidle] at hlog
  have hlen : s.cmdLog.length = s.ghost.respLog.length := hlog
  obtain ⟨hop, -⟩ := firstPhase_opcodeOf hp
  rw [accept_encode]
  refine ⟨by simp [hpc], ?_⟩
  simp only [hop]
  exact ⟨by simpa using hlen, i, hi, rfl, by simp, rfl⟩

/-- R96: an accepted command keeps the invariants; of its first phase they say nothing but the logs. -/
theorem Working.accept (hr : s.refused = none) (hi : isCommand i = true)
    (hbefore : s.inited = false → p ∈ [Phase.n1, .s1, .k1]) : Working (accept (encode i) p s) where
  inv := {
    noFault := hs.inv.noFault
    indices := hs.inv.indices
    armed := hs.inv.armed
    candidate := by simp [CandidateSound, Machine.accept, firstPhase_opcodeOf hp]
    counts := hs.inv.counts
    present := hs.inv.present
    rxieInited := hs.inv.rxieInited
    quiet := by
      intro hni
      have hop : opcodeOf i ≠ 2#4 := by
        intro hwrite
        rw [hwrite] at hp
        obtain rfl : Phase.w1 = p := Option.some.inj hp
        simpa using hbefore hni
      rw [accept_encode, if_neg hop]
      exact hs.inv.quiet hni
    transmitOrder := hs.transmitOrder_accept hidle hp
    receiveOrder := hs.receiveOrder_accept hidle }
  logs := hs.logsFit_accept hidle hp hi
  stored := by simp [StoredBeforePublish, Machine.accept, firstPhase_opcodeOf hp]
  reading := by simp [ReadInProgress, Machine.accept, firstPhase_opcodeOf hp]
  refusedIdle := fun h => absurd hr h
  beforeInit := fun hni => .inr (by simpa [Machine.accept] using hbefore hni)

end Accept

/-- R96: issue keeps the invariants, whatever the word. -/
theorem Working.issue {s : State} (hs : Working s) (hidle : s.m.phase = .idle) (hr : s.refused = none) (w : Word) :
    Working (issue w s) := by
  rcases issue_cases w s with ⟨k, -, h⟩ | ⟨p, hok, h⟩
  · rw [h]
    exact hs.refuse hidle k
  · obtain ⟨i, hi, rfl, hp, hbefore⟩ := issueCheck_ok_command hok
    rw [h]
    exact hs.accept hidle hp hr hi hbefore

end Sys2Proof.Machine

/-! Every step keeps the invariants (spec/70_reset_and_hazards.md R283). -/
namespace Sys2Proof.Machine

/-- R283 (c): the value phase W4 publishes is the next tail, and the buffer has room. -/
theorem Invariants.candidate_of_commit {s : State} {n : Nat} (hs : Invariants s) (hp : s.m.phase = .w4)
    (hn : s.m.nt = some n) : n = advance s.cfg s.tx.tail ∧ advance s.cfg s.tx.tail ≠ s.tx.head := by
  obtain ⟨hnt, hroom⟩ := hs.candidate (.inr hp)
  exact ⟨Option.some.inj (hn.symm.trans hnt), hroom⟩

/-- R283 (e), R232: from the invariants no step raises a fault. -/
theorem Working.not_missing {s : State} {i : Instr} {k : FaultMark} (hs : Working s) : ¬ Missing s i k := by
  intro h
  obtain ⟨hreading, hlatched⟩ := hs.reading
  obtain ⟨-, -, hwaiting, hflight⟩ := hs.inv.present
  cases h with
  | w1 hp hb | w3 hp hb =>
    obtain ⟨d, hd⟩ := hs.logs.operand (by rw [hp]; rfl)
    cases hb.symm.trans hd
  | w4 hp hnt =>
    obtain ⟨hsome, -⟩ := hs.inv.candidate (.inr hp)
    cases hnt.symm.trans hsome
  | r2 hp _ hnone =>
    obtain ⟨v, hv⟩ := hs.inv.exists_rx_head_byte (hreading (.inl hp))
    cases hnone.symm.trans hv
  | r3 hp hv =>
    obtain ⟨v, hbyte⟩ := hs.inv.exists_rx_head_byte (hreading (.inr hp))
    cases hv.symm.trans ((hlatched hp).symm.trans hbyte)
  | rxData he hnone =>
    obtain ⟨-, -, -, ha⟩ := isrRxEnabled_iff.mp he
    simpa [hnone] using hwaiting ha
  | emptyPop he hempty =>
    obtain ⟨-, -, hx, -⟩ := isrTxEnabled_iff.mp he
    exact hs.inv.armed.mp hx hempty
  | txSlot _ hn _ hnone =>
    obtain ⟨v, hv⟩ := hs.inv.exists_tx_head_byte hn
    cases hnone.symm.trans hv
  | txData he hnone =>
    obtain ⟨-, hr⟩ := lineTxEnabled_iff.mp he
    simpa [hnone] using hflight hr

namespace Working

section
variable {s t : State} {i : Instr} (hs : Working s) (h : Transition s i t)
include hs h

theorem keeps_noFault : t.fault = none := by
  have hf := hs.inv.noFault
  cases h with
  | raised hm => exact absurd hm hs.not_missing
  | presented _ hp hr | issued hp hr => exact (hs.issue hp hr _).inv.noFault
  | _ => exact hf

/-- R283 (a): an index that moves is reduced modulo `C`, or is the candidate that was. -/
theorem keeps_indices : IndicesLegal t := by
  obtain ⟨hrxHead, hrxTail, htxHead, htxTail⟩ := hs.inv.indices
  cases h with
  | presented _ hp hr | issued hp hr => exact (hs.issue hp hr _).inv.indices
  | commit hp _ hn =>
    obtain ⟨rfl, -⟩ := hs.inv.candidate_of_commit hp hn
    exact ⟨hrxHead, hrxTail, htxHead, advance_lt _ _⟩
  | deliver => exact ⟨advance_lt _ _, hrxTail, htxHead, htxTail⟩
  | receive => exact ⟨hrxHead, advance_lt _ _, htxHead, htxTail⟩
  | transmit => exact ⟨hrxHead, hrxTail, advance_lt _ _, htxTail⟩
  | _ => exact ⟨hrxHead, hrxTail, htxHead, htxTail⟩

/-- R283 (b): the commit arms on a buffer it makes not empty, and ISR_TX disarms exactly on one it makes empty. -/
theorem keeps_armed : ArmedIffNonEmpty t := by
  have harmed := hs.inv.armed
  cases h with
  | presented _ hp hr | issued hp hr => exact (hs.issue hp hr _).inv.armed
  | commit hp _ hn =>
    obtain ⟨rfl, hroom⟩ := hs.inv.candidate_of_commit hp hn
    simpa [ArmedIffNonEmpty] using hroom.symm
  | transmit he =>
    obtain ⟨-, -, hx, -⟩ := isrTxEnabled_iff.mp he
    simp [ArmedIffNonEmpty, hx]
  | _ => exact harmed

/-- R283 (c): the candidate is latched where there is room, only the commit moves `TX.tail`, and a pop makes room. -/
theorem keeps_candidate : CandidateSound t := by
  obtain ⟨-, -, htxHead, htxTail⟩ := hs.inv.indices
  have hcand := hs.inv.candidate
  cases h with
  | presented _ hp hr | issued hp hr => exact (hs.issue hp hr _).inv.candidate
  | room _ _ hroom => exact fun _ => ⟨rfl, hroom⟩
  | store hp => exact fun _ => hcand (.inl hp)
  | transmit _ hn =>
    intro hp
    obtain ⟨hnt, -⟩ := hcand hp
    exact ⟨hnt, fun he => hn (advance_injective s.cfg htxTail htxHead he).symm⟩
  | raised | operand | drop | receive | overrun | arrive | depart => exact hcand
  | _ => simp [CandidateSound]

/-- R283 (e), the receive buffer. -/
theorem keeps_rxFilled : SlotsFilled t.cfg.capacity t.rx := by
  obtain ⟨hrxHead, hrxTail, -, -⟩ := hs.inv.indices
  obtain ⟨hreading, -⟩ := hs.reading
  obtain ⟨hfilled, -, -, -⟩ := hs.inv.present
  cases h with
  | presented | issued => rw [issue_frame]; exact hfilled
  | deliver hp => exact SlotsFilled.pop hfilled hrxHead hrxTail (hreading (.inr hp))
  | receive _ _ hroom =>
    exact SlotsFilled.publish (SlotsFilled.store hfilled hrxHead hrxTail _) hrxHead hrxTail hroom
      (Memory.lookup_store_same _ _ _)
  | _ => exact hfilled

/-- R283 (e), the transmit buffer: the slot the commit publishes holds the byte W3 stored. -/
theorem keeps_txFilled : SlotsFilled t.cfg.capacity t.tx := by
  obtain ⟨-, -, htxHead, htxTail⟩ := hs.inv.indices
  obtain ⟨-, hfilled, -, -⟩ := hs.inv.present
  cases h with
  | presented | issued => rw [issue_frame]; exact hfilled
  | store => exact SlotsFilled.store hfilled htxHead htxTail _
  | commit hp _ hn =>
    obtain ⟨rfl, hroom⟩ := hs.inv.candidate_of_commit hp hn
    obtain ⟨d, hd⟩ := hs.logs.operand (by rw [hp]; rfl)
    exact SlotsFilled.publish hfilled htxHead htxTail hroom ((hs.stored hp).trans hd)
  | transmit _ hn => exact SlotsFilled.pop hfilled htxHead htxTail hn
  | _ => exact hfilled

/-- R283 (e). -/
theorem keeps_present : ValuesPresent t := by
  refine ⟨hs.keeps_rxFilled h, hs.keeps_txFilled h, ?_⟩
  obtain ⟨-, -, hwaiting, hflight⟩ := hs.inv.present
  cases h with
  | presented | issued => rw [issue_frame]; exact ⟨hwaiting, hflight⟩
  | fast | transmit => exact ⟨hwaiting, fun _ => rfl⟩
  | drop | receive => exact ⟨nofun, hflight⟩
  | arrive => exact ⟨fun _ => rfl, hflight⟩
  | depart => exact ⟨hwaiting, nofun⟩
  | _ => exact ⟨hwaiting, hflight⟩

/-- R283 (f). -/
theorem keeps_rxieInited : t.rxie = t.inited := by
  have heq := hs.inv.rxieInited
  cases h with
  | presented _ hp hr | issued hp hr => exact (hs.issue hp hr _).inv.rxieInited
  | n1 => rfl
  | _ => exact heq

/-- R96: before INIT there is no other command in progress than INIT, GIE_SET and GIE_CLR. -/
theorem keeps_beforeInit (hni : t.inited = false) :
    t.m.phase = .idle ∨ t.m.phase = .n1 ∨ t.m.phase = .s1 ∨ t.m.phase = .k1 := by
  have hbefore := hs.beforeInit
  cases h with
  | presented _ hp hr | issued hp hr => exact (hs.issue hp hr _).beforeInit hni
  | slow hp | spin hp | room hp | store hp | readSome hp | latch hp =>
    have hphase := hbefore hni
    simp [hp] at hphase
  | raised | operand | drop | receive | transmit | overrun | arrive | depart => exact hbefore hni
  | _ => exact .inl rfl

/-- R283 (g): before INIT no command but INIT, GIE_SET and GIE_CLR is in progress, and no handler and no step of the
line is enabled. -/
theorem keeps_quiet : QuietBeforeInit t := by
  intro hni
  have hquiet := hs.inv.quiet
  have hbefore := hs.beforeInit
  cases h with
  | presented _ hp hr | issued hp hr => exact (hs.issue hp hr _).inv.quiet hni
  | n1 => cases hni
  | fast hp | commit hp | deliver hp =>
    have hphase := hbefore hni
    simp [hp] at hphase
  | drop he | receive he =>
    obtain ⟨-, -, -, ha⟩ := isrRxEnabled_iff.mp he
    obtain ⟨-, -, hna, -⟩ := hquiet hni
    cases ha.symm.trans hna
  | transmit _ hn =>
    obtain ⟨-, hempty, -⟩ := hquiet hni
    exact absurd hempty hn
  | overrun he | arrive he =>
    obtain ⟨-, hi, -⟩ := lineRxEnabled_iff.mp he
    cases hi.symm.trans hni
  | depart he =>
    obtain ⟨-, hbusy⟩ := lineTxEnabled_iff.mp he
    obtain ⟨-, -, -, hr, -⟩ := hquiet hni
    cases hr.symm.trans hbusy
  | _ => exact hquiet hni

/-- R283 (h), first equation: each of W1, W4, ISR_TX and LINE_TX moves a byte from one stage of its way to the next. -/
theorem keeps_transmitOrder : TransmitOrder t := by
  obtain ⟨-, -, htxHead, htxTail⟩ := hs.inv.indices
  have horder := hs.inv.transmitOrder
  cases h with
  | presented _ hp hr | issued hp hr => exact (hs.issue hp hr _).inv.transmitOrder
  | fast hp _ hn hr hb =>
    rw [transmitOrder_iff_of_writing (by rw [hp]; rfl) hb, inflight_of_ready hr,
      content_of_empty (by exact hn), List.append_nil, List.append_nil] at horder
    refine (transmitOrder_iff_of_not_writing (by rfl)).mpr ?_
    rw [inflight_of_busy (by rfl) (by rfl), content_of_empty (by exact hn), List.append_nil]
    exact horder
  | @store v hp _ hb =>
    have hcontent : content .txbuf s = _ := (ringContent_store_tail htxHead htxTail v).symm
    rw [transmitOrder_iff_of_writing (by rw [hp]; rfl) hb, hcontent] at horder
    exact (transmitOrder_iff_of_writing (by rfl) (by exact hb)).mpr horder
  | commit hp _ hn =>
    obtain ⟨rfl, hroom⟩ := hs.inv.candidate_of_commit hp hn
    obtain ⟨d, hd⟩ := hs.logs.operand (by rw [hp]; rfl)
    have hcontent : _ = content .txbuf s ++ [d] :=
      ringContent_publish s.cfg htxHead htxTail hroom ((hs.stored hp).trans hd)
    rw [transmitOrder_iff_of_writing (by rw [hp]; rfl) hd, List.append_assoc, ← hcontent] at horder
    exact (transmitOrder_iff_of_not_writing (by rfl)).mpr horder
  | transmit he hn hh hv =>
    obtain ⟨-, -, -, hr⟩ := isrTxEnabled_iff.mp he
    have hcontent : content .txbuf s = _ := ringContent_pop s.cfg htxHead htxTail hn hv
    rw [TransmitOrder, inflight_of_ready hr, hcontent, List.append_nil, List.append_cons] at horder
    rw [TransmitOrder, inflight_of_busy (by rfl) (by rfl)]
    exact horder
  | depart he hv =>
    obtain ⟨-, hbusy⟩ := lineTxEnabled_iff.mp he
    rw [TransmitOrder, inflight_of_busy hbusy hv] at horder
    rw [TransmitOrder, inflight_of_ready (by rfl), List.append_nil]
    exact horder
  | raised | operand | drop | receive | overrun | arrive => exact horder
  | slow hp | spin hp | room hp =>
    obtain ⟨d, hd⟩ := hs.logs.operand (by rw [hp]; rfl)
    rw [transmitOrder_iff_of_writing (by rw [hp]; rfl) hd] at horder
    exact (transmitOrder_iff_of_writing (by rfl) (by exact hd)).mpr horder
  | n1 hp | s1 hp | k1 hp | readEmpty hp | readSome hp | latch hp | deliver hp | avail hp =>
    rw [transmitOrder_iff_of_not_writing (by rw [hp]; rfl)] at horder
    exact (transmitOrder_iff_of_not_writing rfl).mpr horder

/-- R283 (h), second equation: ISR_RX appends to the buffer and R3 delivers its first byte; no other response delivers
one. -/
theorem keeps_receiveOrder : ReceiveOrder t := by
  obtain ⟨hrxHead, hrxTail, -, -⟩ := hs.inv.indices
  have horder := hs.inv.receiveOrder
  cases h with
  | presented _ hp hr | issued hp hr => exact (hs.issue hp hr _).inv.receiveOrder
  | n1 hp | s1 hp | k1 hp | fast hp | commit hp | readEmpty hp | avail hp =>
    refine Eq.trans (congrArg (· ++ _) ?_) horder
    rw [hs.logs.delivered_respond (by rw [hp]; rfl) (by rfl) (by rfl)]
    simp
  | @deliver v hp _ hv =>
    obtain ⟨hreading, hlatched⟩ := hs.reading
    have hbyte : Memory.lookup s.rx.buf s.rx.head = some v := (hlatched hp).trans hv
    have hcontent : content .rxbuf s = _ := ringContent_pop s.cfg hrxHead hrxTail (hreading (.inr hp)) hbyte
    rw [ReceiveOrder, hcontent, List.append_cons] at horder
    refine Eq.trans (congrArg (· ++ _) ?_) horder
    rw [hs.logs.delivered_respond (by rw [hp]; rfl) (by rfl) (by rfl), if_pos ⟨rfl, zext16_ne_respNone v⟩,
      setWidth_zext16]
  | @receive v _ _ hroom =>
    have hcontent : _ = content .rxbuf s ++ [v] := ringContent_push s.cfg hrxHead hrxTail hroom v
    exact (congrArg (delivered s ++ ·) hcontent).trans (by rw [← horder, List.append_assoc])
  | _ => exact horder

/-- R29, R100: a response completes the command last issued, and within a command the logs stand. -/
theorem keeps_logs : LogsFit t := by
  have hlogs := hs.logs
  cases h with
  | presented _ hp hr | issued hp hr => exact (hs.issue hp hr _).logs
  | n1 hp | s1 hp | k1 hp | fast hp | commit hp | readEmpty hp | deliver hp | avail hp =>
    exact hlogs.respond (by rw [hp]; nofun) rfl rfl rfl _
  | slow hp | spin hp | room hp | store hp | readSome hp | latch hp =>
    rw [LogsFit, hp] at hlogs
    exact hlogs
  | _ => exact hlogs

/-- R76: W4 is entered by the store, and no other transition touches the slot. -/
theorem keeps_stored : StoredBeforePublish t := by
  have hstored := hs.stored
  cases h with
  | presented _ hp hr | issued hp hr => exact (hs.issue hp hr _).stored
  | store _ _ hb => exact fun _ => (Memory.lookup_store_same _ _ _).trans hb.symm
  | raised | operand | drop | receive | transmit | overrun | arrive | depart => exact hstored
  | _ => simp [StoredBeforePublish]

/-- R184: ISR_RX stores at the tail, which is not the head of a buffer that is not empty. -/
theorem keeps_reading : ReadInProgress t := by
  obtain ⟨hreading, hlatched⟩ := hs.reading
  cases h with
  | presented _ hp hr | issued hp hr => exact (hs.issue hp hr _).reading
  | readSome _ _ hn => exact ⟨fun _ => hn, nofun⟩
  | latch hp _ _ hv => exact ⟨fun _ => hreading (.inl hp), fun _ => hv⟩
  | receive _ _ hroom =>
    refine ⟨fun _ => hroom.symm, fun hp => ?_⟩
    exact (Memory.lookup_store_other _ _ (hreading (.inr hp))).trans (hlatched hp)
  | raised | operand | drop | transmit | overrun | arrive | depart => exact ⟨hreading, hlatched⟩
  | _ => simp [ReadInProgress]

/-- R233: a mark is set in phase IDLE, and from then on the mainline has no step. -/
theorem keeps_refusedIdle (hk : t.refused ≠ none) : t.m.phase = .idle := by
  have hidle := hs.refusedIdle
  cases h with
  | presented _ hp hr | issued hp hr => exact (hs.issue hp hr _).refusedIdle hk
  | operand hp => exact hp
  | slow _ hr | spin _ hr | room _ hr | store _ hr | readSome _ hr | latch _ hr => exact absurd hr hk
  | raised | drop | receive | transmit | overrun | arrive | depart => exact hidle hk
  | _ => rfl

/-- R283: every transition of the invariants leads into them again. -/
theorem transition : Working t where
  inv := {
    noFault := hs.keeps_noFault h
    indices := hs.keeps_indices h
    armed := hs.keeps_armed h
    candidate := hs.keeps_candidate h
    counts := (hs.keeps_indices h).countsBounded
    present := hs.keeps_present h
    rxieInited := hs.keeps_rxieInited h
    quiet := hs.keeps_quiet h
    transmitOrder := hs.keeps_transmitOrder h
    receiveOrder := hs.keeps_receiveOrder h }
  logs := hs.keeps_logs h
  stored := hs.keeps_stored h
  reading := hs.keeps_reading h
  refusedIdle := hs.keeps_refusedIdle h
  beforeInit := hs.keeps_beforeInit h

end

end Working

/-- Settles O51, by the inversion of a step: the schedule is no part of the invariants, a reserved word is issued, and
an operation takes one of its transitions. -/
theorem everyStepKeepsTheInvariants : Obligations.EveryStepKeepsTheInvariants := by
  intro s t hs hstep
  rcases step_cases hstep with ⟨i, tr, n, hexec⟩ | ⟨w, tr, hpresent⟩
  · obtain ⟨-, h⟩ := exec_cases hexec
    exact (hs.with_schedule_and_refusal tr n s.refused hs.refusedIdle).transition h
  · obtain ⟨-, hr, hp, rfl⟩ := present_next hpresent
    exact (hs.with_schedule_and_refusal tr s.draws s.refused hs.refusedIdle).issue hp hr w

end Sys2Proof.Machine

/-! Runs from reset and their ends (spec/60_exceptions.md R232, spec/70_reset_and_hazards.md R280, R283). -/
namespace Sys2Proof.Machine

theorem Working.exec_next {s t : State} {i : Instr} (hs : Working s) (h : exec i s = .next t) : Working t := by
  obtain ⟨-, ht⟩ := exec_cases h
  exact hs.transition ht

/-- What every step keeps, every number of steps keeps. -/
theorem run_keeps {P : State → Prop} (hstep : ∀ s t, P s → step s = .next t → P t) {n : Nat} {s t : State}
    (hs : P s) (h : Host.Core.run core n s = .next t) : P t := by
  induction n generalizing s with
  | zero => cases h; exact hs
  | succ n ih =>
    cases hfirst : step s with
    | next u => exact ih (hstep s u hs hfirst) (by simpa only [Host.Core.run, core, hfirst] using h)
    | fault | refused => simp [Host.Core.run, core, hfirst] at h

/-- A settled body stops with a fault only at a slot that does not exist. -/
theorem settle_ne_fault {s : State} {r : Except Abort State} (hr : SlotsExist r) (f : Fault) :
    settle s r ≠ .fault f := by
  obtain ⟨t, ht⟩ := exists_settle_next (s := s) hr
  rw [ht]
  nofun

theorem agentStep_ne_fault {a : Agent} {c : Bool} {body : State → Except Abort State} {s : State}
    (hf : s.fault = none) (hb : SlotsExist (body s)) (f : Fault) : agentStep a c body s ≠ .fault f := by
  cases c with
  | true => rw [agentStep_of hf rfl]; exact settle_ne_fault hb f
  | false => simp [agentStep, hf]

theorem mainlineStep_ne_fault {c : Bool} {body : State → Except Abort State} {s : State}
    (hf : s.fault = none) (hb : SlotsExist (body s)) (f : Fault) : mainlineStep c body s ≠ .fault f := by
  cases hr : s.refused with
  | none => simpa [mainlineStep, hr] using agentStep_ne_fault hf hb f
  | some k => simp [mainlineStep, hr, hf]

theorem present_ne_fault {s : State} (hf : s.fault = none) (w : Word) (f : Fault) : present w s ≠ .fault f :=
  mainlineStep_ne_fault (body := fun t => .ok (issue w t)) hf (SlotsExist.ok _) f

/-- Without the mark and with legal indices no operation stops with a fault. -/
theorem exec_ne_fault {s : State} (hf : s.fault = none) (hs : IndicesLegal s) (i : Instr) (f : Fault) :
    exec i s ≠ .fault f := by
  obtain ⟨hrxHead, hrxTail, htxHead, htxTail⟩ := hs
  cases i with
  | init | write | read | avail | gieClr | gieSet => exact present_ne_fault hf _ f
  | isrRx => exact agentStep_ne_fault hf (SlotsExist.isrRxBody hrxTail) f
  | isrTx => exact agentStep_ne_fault hf (SlotsExist.isrTxBody htxHead) f
  | lineRx d => exact agentStep_ne_fault hf (SlotsExist.lineRxBody d s) f
  | lineTx => exact agentStep_ne_fault hf (SlotsExist.lineTxBody s) f
  | mstep => exact mainlineStep_ne_fault hf (SlotsExist.mainlineBody hrxHead htxTail) f

/-- Nor does the step the schedule takes. -/
theorem step_ne_fault {s : State} (hf : s.fault = none) (hs : IndicesLegal s) (f : Fault) : step s ≠ .fault f := by
  unfold step
  cases hfetch : fetch s with
  | run i t =>
    obtain ⟨tr, n, rfl⟩ := fetch_run hfetch
    exact exec_ne_fault (by exact hf) (by exact hs) i f
  | presented w t =>
    obtain ⟨tr, rfl⟩ := fetch_presented hfetch
    exact present_ne_fault (by exact hf) w f
  | nothing => simp [stopQuiescent, hf]

/-- Settles O54: a run begins in the invariants and every step keeps them; in them no fault is marked, and no slot named
is one that does not exist. -/
theorem noFaultIsReachable : Obligations.NoFaultIsReachable := by
  intro cfg p inp tr n t hrun
  have ht : Working t := run_keeps everyStepKeepsTheInvariants (working_start cfg p inp tr) hrun
  exact ⟨ht.inv.noFault, ht.inv.transmitOrder, ht.inv.receiveOrder, step_ne_fault ht.inv.noFault ht.inv.indices⟩

/-- R280: what a final state says of the mainline and the line's transmit side. -/
theorem final_iff {s : State} : final s = true ↔
    quiescent s = true ∧ unmarked s = true ∧ s.m.phase = .idle ∧ nextChoice s = .halt ∧
      s.tx.head = s.tx.tail ∧ s.line.txReady = true ∧ s.line.rxAvail = false := by
  simp [final, ringEmpty, and_assoc]

/-- Settles O55: in phase IDLE no WRITE is pending, and both later stages of a byte's way are empty. -/
theorem finalStatesHaveSentEverything : Obligations.FinalStatesHaveSentEverything := by
  intro s hs hfinal
  obtain ⟨-, -, hidle, -, hempty, hready, -⟩ := final_iff.mp hfinal
  have horder := (transmitOrder_iff_of_not_writing (by rw [hidle]; rfl)).mp hs.inv.transmitOrder
  rw [inflight_of_ready hready, content_of_empty (by exact hempty), List.append_nil, List.append_nil] at horder
  exact horder.symm

end Sys2Proof.Machine

/-! Both handlers pending (spec/60_exceptions.md R242). -/
namespace Sys2Proof.Machine

/-- R142: ISR_RX accepted with `RX` full, as a step. -/
theorem exec_isrRx_of_full {s : State} {v : Byte} (he : isrRxEnabled s = true) (hv : s.line.rxData = some v)
    (hfull : advance s.cfg s.rx.tail = s.rx.head) :
    exec .isrRx s = .next { s with
      line := { s.line with rxAvail := false }
      ghost := { s.ghost with rxDropped := s.ghost.rxDropped ++ [v] } } := by
  obtain ⟨-, hg, -, -⟩ := isrRxEnabled_iff.mp he
  rw [exec_isrRx_of_enabled he, isrRxBody_of_full hg hv hfull]
  rfl

/-- R141: ISR_RX accepted with room, as a step. -/
theorem exec_isrRx_of_room {s : State} {v : Byte} (he : isrRxEnabled s = true) (hv : s.line.rxData = some v)
    (htail : s.rx.tail < s.cfg.capacity) (hroom : advance s.cfg s.rx.tail ≠ s.rx.head) :
    exec .isrRx s = .next { s with
      rx := ⟨Memory.store s.rx.buf s.rx.tail v, s.rx.head, advance s.cfg s.rx.tail⟩
      line := { s.line with rxAvail := false }
      ghost := { s.ghost with rxAccepted := s.ghost.rxAccepted ++ [v] } } := by
  obtain ⟨-, hg, -, -⟩ := isrRxEnabled_iff.mp he
  rw [exec_isrRx_of_enabled he, isrRxBody_of_room hg hv htail hroom]
  rfl

/-- Settles O35: each handler leaves what the other's condition and body read, so whether `RX` is full or has room the
second runs as it would have run first. -/
theorem handlersCommute : Obligations.HandlersCommute := by
  intro s hs hrx htx
  obtain ⟨-, -, hx, -⟩ := isrTxEnabled_iff.mp htx
  obtain ⟨-, -, -, ha⟩ := isrRxEnabled_iff.mp hrx
  obtain ⟨-, hrxTail, htxHead, -⟩ := hs.inv.indices
  obtain ⟨-, -, hwaiting, -⟩ := hs.inv.present
  obtain ⟨v, hv⟩ := Option.isSome_iff_exists.mp (hwaiting ha)
  have hn := hs.inv.armed.mp hx
  obtain ⟨w, hw⟩ := hs.inv.exists_tx_head_byte hn
  have hsend := exec_isrTx_of_byte htx hn htxHead hw
  by_cases hfull : advance s.cfg s.rx.tail = s.rx.head
  · refine ⟨_, runTrace_pair_of_next (exec_isrRx_of_full hrx hv hfull)
      (exec_isrTx_of_byte (by exact htx) (by exact hn) (by exact htxHead) (by exact hw)), ?_⟩
    exact runTrace_pair_of_next hsend (exec_isrRx_of_full (by exact hrx) (by exact hv) (by exact hfull))
  · refine ⟨_, runTrace_pair_of_next (exec_isrRx_of_room hrx hv hrxTail hfull)
      (exec_isrTx_of_byte (by exact htx) (by exact hn) (by exact htxHead) (by exact hw)), ?_⟩
    exact runTrace_pair_of_next hsend
      (exec_isrRx_of_room (by exact hrx) (by exact hv) (by exact hrxTail) (by exact hfull))

end Sys2Proof.Machine

/-! What a fault leaves, when a handler is accepted, and who writes the enables and the command index
(spec/60_exceptions.md R232, R240, spec/10_state.md R29, R32 to R35). -/
namespace Sys2Proof.Machine

/-- R232: a step either raises a fault or leaves the mark. -/
theorem Transition.raised_or_fault_eq {s t : State} {i : Instr} (h : Transition s i t) :
    (∃ k, t = raiseMark k s) ∨ t.fault = s.fault := by
  cases h with
  | raised => exact .inl ⟨_, rfl⟩
  | presented | issued => exact .inr (by rw [issue_frame])
  | _ => exact .inr rfl

/-- Settles O46: the step that sets the mark is the one that raises it. -/
theorem faultDiscardsEveryWrite : Obligations.FaultDiscardsEveryWrite := by
  intro i s t hexec ht
  obtain ⟨hf, h⟩ := exec_cases hexec
  rcases h.raised_or_fault_eq with ⟨k, rfl⟩ | heq
  · rfl
  · exact absurd (heq.trans hf) ht

/-- Settles O10: the conditions are those of the rule, and none reads the phase. -/
theorem acceptanceRule : Obligations.AcceptanceRule := fun _ =>
  ⟨isrRxEnabled_iff, isrTxEnabled_iff, fun _ => ⟨rfl, rfl⟩⟩

/-- R283 (i): `GIE` is written by S1 and K1; a handler and the guard put back the value they found. -/
theorem Transition.phase_of_gie_ne {s t : State} {i : Instr} (h : Transition s i t) (hne : t.gie ≠ s.gie) :
    i = .mstep ∧ (s.m.phase = .s1 ∨ s.m.phase = .k1) := by
  cases h with
  | s1 hp => exact ⟨rfl, .inl hp⟩
  | k1 hp => exact ⟨rfl, .inr hp⟩
  | presented | issued => exact absurd (issue_gie _ s) hne
  | _ => exact absurd rfl hne

/-- R33, R35: INIT sets both flags, and no transition clears one. -/
theorem Transition.rxie_inited_not_cleared {s t : State} {i : Instr} (h : Transition s i t) :
    (s.rxie = true → t.rxie = true) ∧ (s.inited = true → t.inited = true) := by
  cases h with
  | n1 => exact ⟨fun _ => rfl, fun _ => rfl⟩
  | presented | issued => rw [issue_frame]; exact ⟨id, id⟩
  | _ => exact ⟨id, id⟩

/-- R96: a refused word leaves the command index, an accepted one moves it by one. -/
theorem issue_pc_eq_or_succ (w : Word) (s : State) : (issue w s).m.pc = s.m.pc ∨ (issue w s).m.pc = s.m.pc + 1 := by
  rcases issue_cases w s with ⟨r, -, h⟩ | ⟨p, -, h⟩
  · exact .inl (by rw [h]; rfl)
  · exact .inr (by rw [h]; rfl)

/-- R29: the command index moves at issue only. -/
theorem Transition.pc_eq_or_issues {s t : State} {i : Instr} (h : Transition s i t) :
    t.m.pc = s.m.pc ∨ (t.m.pc = s.m.pc + 1 ∧ s.m.phase = .idle ∧ (isCommand i = true ∨ i = .mstep)) := by
  cases h with
  | presented hi hp => exact (issue_pc_eq_or_succ _ s).imp_right fun hpc => ⟨hpc, hp, .inl hi⟩
  | issued hp => exact (issue_pc_eq_or_succ _ s).imp_right fun hpc => ⟨hpc, hp, .inr rfl⟩
  | _ => exact .inl rfl

/-- Settles O44, by one lemma for `GIE`, one for the flags INIT sets and one for the command index. -/
theorem enablesChangeOnlyByTheirCommands : Obligations.EnablesChangeOnlyByTheirCommands := by
  intro i s t hexec
  obtain ⟨-, h⟩ := exec_cases hexec
  obtain ⟨hrxie, hinited⟩ := h.rxie_inited_not_cleared
  exact ⟨h.phase_of_gie_ne, hrxie, hinited, h.pc_eq_or_issues⟩

end Sys2Proof.Machine

/-! The steps enabled after reset (spec/70_reset_and_hazards.md R271). -/
namespace Sys2Proof.Machine

/-- Settles O12: the port is ready, so a command word is; MSTEP is unless the program halts at once; `GIE`, `INITED` and
the ready transmitter shut out the other agents. -/
theorem onlyIssueIsEnabledAfterReset : Obligations.OnlyIssueIsEnabledAfterReset := by
  intro cfg p inp tr
  refine ⟨rfl, rfl, rfl, rfl, fun i => ?_⟩
  cases i with
  | init | write | read | avail | gieClr | gieSet => exact iff_of_true rfl (.inl rfl)
  | isrRx | isrTx | lineRx | lineTx => exact iff_of_false nofun (by simp [isCommand])
  | mstep =>
    refine mstepEnabled_iff.trans ?_
    simp [State.start, nextChoice, isCommand]

end Sys2Proof.Machine

/-! A WRITE in a fair run with the interrupts on (spec/70_reset_and_hazards.md R282). -/
namespace Sys2Proof.Machine

/-! ## Progress along a run -/

/-- From every boundary at which `P` holds the run comes to one at which `Q` holds. -/
def LeadsTo (r : Nat → State) (P Q : State → Prop) : Prop := ∀ n, P (r n) → ∃ k, n ≤ k ∧ Q (r k)

theorem LeadsTo.trans {r : Nat → State} {P Q R : State → Prop} (hpq : LeadsTo r P Q) (hqr : LeadsTo r Q R) :
    LeadsTo r P R := by
  intro n hp
  obtain ⟨k, hk, hq⟩ := hpq n hp
  obtain ⟨m, hm, hr⟩ := hqr k hq
  exact ⟨m, hk.trans hm, hr⟩

theorem LeadsTo.refl (r : Nat → State) (P : State → Prop) : LeadsTo r P P := fun n hp => ⟨n, le_refl n, hp⟩

theorem LeadsTo.or {r : Nat → State} {P Q R : State → Prop} (hp : LeadsTo r P R) (hq : LeadsTo r Q R) :
    LeadsTo r (fun s => P s ∨ Q s) R := fun n h => h.elim (hp n) (hq n)

/-- The operation `i` ends `P` in `Q`: while `P` holds it is enabled, its step reaches `Q`, and no other step leaves `P`
but for `Q`. -/
structure Ensures (i : Instr) (P Q : State → Prop) : Prop where
  /-- It can be taken all the while. -/
  enabled : ∀ {s}, Working s → s.gie = true → P s → enabled i s = true
  /-- It reaches `Q`. -/
  taken : ∀ {s t}, Working s → P s → exec i s = .next t → Q t
  /-- The other steps wait for it. -/
  other : ∀ {s t j}, Working s → P s → j ≠ i → exec j s = .next t → P t ∨ Q t

theorem IsRun.working {r : Nat → State} {l : Nat → Instr} (hrun : IsRun r l) (h0 : Working (r 0)) (n : Nat) :
    Working (r n) := by
  induction n with
  | zero => exact h0
  | succ n ih =>
    rcases hrun n with hexec | ⟨-, hstay⟩
    · exact ih.exec_next hexec
    · rw [hstay]; exact ih

/-- R282: what a step that is treated fairly ensures comes to pass. -/
theorem Ensures.leadsTo {i : Instr} {P Q : State → Prop} (he : Ensures i P Q) {r : Nat → State} {l : Nat → Instr}
    (hrun : IsRun r l) (hfair : WeaklyFair i r l) (h0 : Working (r 0)) (hg : ∀ n, (r n).gie = true) :
    LeadsTo r P Q := by
  intro n hp
  by_contra hnever
  push Not at hnever
  have hstays (k : Nat) (hk : n ≤ k) : P (r k) := by
    induction k, hk using Nat.le_induction with
    | base => exact hp
    | succ k hk ih =>
      rcases hrun k with hexec | ⟨-, hstay⟩
      · have hnext : ¬ Q (r (k + 1)) := hnever _ (Nat.le_succ_of_le hk)
        by_cases hl : l k = i
        · exact absurd (he.taken (hrun.working h0 k) ih (hl ▸ hexec)) hnext
        · exact (he.other (hrun.working h0 k) ih hl hexec).resolve_right hnext
      · rw [hstay]; exact ih
  obtain ⟨k, hk, -, hexec⟩ := hfair n fun k hk => he.enabled (hrun.working h0 k) (hg k) (hstays k hk)
  exact hnever (k + 1) (Nat.le_succ_of_le hk) (he.taken (hrun.working h0 k) (hstays k hk) hexec)

/-! ## Steps of the other agents while a WRITE waits -/

namespace Transition

section
variable {s t : State} {i : Instr} (h : Transition s i t)
include h

theorem cfg_eq : t.cfg = s.cfg := by
  cases h with
  | presented | issued => rw [issue_frame]
  | _ => rfl

/-- While a command is in progress the mainline's registers are the mainline's own. -/
theorem m_eq_of_ne_mstep (hi : i ≠ .mstep) (hp : s.m.phase ≠ .idle) : t.m = s.m := by
  cases h with
  | presented _ hidle => exact absurd hidle hp
  | raised | drop | receive | transmit | overrun | arrive | depart => rfl
  | _ => exact absurd rfl hi

/-- R163, R166: a buffer that is not full becomes full by the commit only. -/
theorem room_of_room (hs : IndicesLegal s) (hroom : advance s.cfg s.tx.tail ≠ s.tx.head)
    (hi : ¬ (i = .mstep ∧ s.m.phase = .w4)) : advance t.cfg t.tx.tail ≠ t.tx.head := by
  cases h with
  | presented | issued => rw [issue_frame]; exact hroom
  | commit hp => exact absurd ⟨rfl, hp⟩ hi
  | transmit _ hn =>
    obtain ⟨-, -, hhead, htail⟩ := hs
    exact fun he => hn (advance_injective s.cfg htail hhead he).symm
  | _ => exact hroom

theorem txReady_not_set (hi : i ≠ .lineTx) (hr : s.line.txReady = false) : t.line.txReady = false := by
  cases h with
  | presented | issued => rw [issue_frame]; exact hr
  | depart => exact absurd rfl hi
  | fast | transmit => rfl
  | _ => exact hr

theorem txReady_not_cleared (hi : i ≠ .isrTx) (hp : s.m.phase ≠ .w1) (hr : s.line.txReady = true) :
    t.line.txReady = true := by
  cases h with
  | presented | issued => rw [issue_frame]; exact hr
  | fast hw => exact absurd hw hp
  | transmit => exact absurd rfl hi
  | depart => rfl
  | _ => exact hr

end

end Transition

/-- A WRITE in W2 on a full buffer (R163). -/
structure Spins (s : State) : Prop where
  phase : s.m.phase = .w2
  full : advance s.cfg s.tx.tail = s.tx.head

/-- A WRITE in W2 on a buffer with room (R163). -/
structure HasRoom (s : State) : Prop where
  phase : s.m.phase = .w2
  room : advance s.cfg s.tx.tail ≠ s.tx.head

/-- R233: a command in progress has not been refused, so the mainline can go on. -/
theorem Working.unmarked_of_phase {s : State} (hs : Working s) (hp : s.m.phase ≠ .idle) : unmarked s = true :=
  unmarked_iff.mpr ⟨hs.inv.noFault, not_not.mp fun hr => hp (hs.refusedIdle hr)⟩

theorem Working.mstepEnabled_of_phase {s : State} (hs : Working s) (hp : s.m.phase ≠ .idle) :
    enabled .mstep s = true := by
  obtain ⟨hf, hr⟩ := unmarked_iff.mp (hs.unmarked_of_phase hp)
  exact mstepEnabled_iff.mpr ⟨hf, hr, fun hidle => absurd hidle hp⟩

/-- A phase in progress is left only by the mainline's own step, which is enabled (R103). -/
theorem ensures_of_phase {p : Phase} {Q : State → Prop} (hne : p ≠ .idle)
    (htaken : ∀ {s t}, Working s → s.m.phase = p → exec .mstep s = .next t → Q t) :
    Ensures .mstep (fun s => s.m.phase = p) Q where
  enabled hs _ hp := hs.mstepEnabled_of_phase (hp ▸ hne)
  taken := htaken
  other := by
    intro s t j _ hp hj h
    obtain ⟨-, ht⟩ := exec_cases h
    exact .inl (by rw [ht.m_eq_of_ne_mstep hj (hp ▸ hne), hp])

/-- R161, R162: the first test completes the WRITE or leads into W2. -/
theorem ensures_w1 : Ensures .mstep (fun s => s.m.phase = .w1) (fun s => s.m.phase = .idle ∨ s.m.phase = .w2) := by
  refine ensures_of_phase (by decide) fun {s t} hs hp h => ?_
  have hu := hs.unmarked_of_phase (by simp [hp])
  obtain ⟨d, hd⟩ := hs.logs.operand (by rw [hp]; rfl)
  by_cases hfast : s.tx.head = s.tx.tail ∧ s.line.txReady = true
  · obtain ⟨hn, hr⟩ := hfast
    obtain rfl := Host.Outcome.next.inj ((exec_mstep_w1_of_fast hu hp hd hn hr).symm.trans h)
    exact .inl rfl
  · obtain rfl := Host.Outcome.next.inj ((exec_mstep_w1_of_slow hu hp hfast).symm.trans h)
    exact .inr rfl

/-- R165: the store leads into W4. -/
theorem ensures_w3 : Ensures .mstep (fun s => s.m.phase = .w3) (fun s => s.m.phase = .w4) := by
  refine ensures_of_phase (by decide) fun hs hp h => ?_
  obtain ⟨d, hd⟩ := hs.logs.operand (by rw [hp]; rfl)
  obtain ⟨-, -, -, htail⟩ := hs.inv.indices
  obtain rfl := Host.Outcome.next.inj ((exec_mstep_w3 (hs.unmarked_of_phase (by simp [hp])) hp hd htail).symm.trans h)
  rfl

/-- R166: the commit completes the WRITE. -/
theorem ensures_w4 : Ensures .mstep (fun s => s.m.phase = .w4) (fun s => s.m.phase = .idle) := by
  refine ensures_of_phase (by decide) fun hs hp h => ?_
  obtain ⟨hnt, -⟩ := hs.inv.candidate (.inr hp)
  obtain rfl := Host.Outcome.next.inj ((exec_mstep_w4 (hs.unmarked_of_phase (by simp [hp])) hp hnt).symm.trans h)
  rfl

/-- R163: with room the full test passes, and the other agents leave the room. -/
theorem ensures_w2_room : Ensures .mstep HasRoom (fun s => s.m.phase = .w3) where
  enabled hs _ hroom := hs.mstepEnabled_of_phase (by simp [hroom.phase])
  taken := by
    intro s t hs hroom h
    have hu := hs.unmarked_of_phase (by simp [hroom.phase])
    obtain rfl := Host.Outcome.next.inj ((exec_mstep_w2_of_room hu hroom.phase hroom.room).symm.trans h)
    rfl
  other := by
    intro s t j hs hroom hj h
    obtain ⟨-, ht⟩ := exec_cases h
    have hp := hroom.phase
    exact .inl ⟨by rw [ht.m_eq_of_ne_mstep hj (by simp [hp]), hp],
      ht.room_of_room hs.inv.indices hroom.room (by simp [hp])⟩

/-- A full buffer is not empty: `C` is at least 2. -/
theorem Spins.nonempty {s : State} (hspin : Spins s) (hs : Working s) : s.tx.head ≠ s.tx.tail := by
  obtain ⟨-, -, -, htail⟩ := hs.inv.indices
  exact hspin.full ▸ advance_ne s.cfg htail

/-- Only ISR_TX ends a spin. -/
theorem Spins.exec_next {s t : State} {i : Instr} (hspin : Spins s) (hs : Working s) (hi : i ≠ .isrTx)
    (h : exec i s = .next t) : Spins t := by
  obtain ⟨hp, hfull⟩ := hspin
  have hbusy : s.m.phase ≠ .idle := by simp [hp]
  by_cases hm : i = .mstep
  · subst hm
    obtain rfl := Host.Outcome.next.inj ((exec_mstep_w2_of_full (hs.unmarked_of_phase hbusy) hp hfull).symm.trans h)
    exact ⟨hp, hfull⟩
  · obtain ⟨-, ht⟩ := exec_cases h
    refine ⟨by rw [ht.m_eq_of_ne_mstep hm hbusy, hp], ?_⟩
    rw [ht.cfg_eq, ht.tx_tail_eq (by simp [hp]), ht.tx_head_eq hi, hfull]

/-- R218: while a WRITE spins the byte in flight leaves. -/
theorem ensures_ready : Ensures .lineTx (fun s => Spins s ∧ s.line.txReady = false)
    (fun s => Spins s ∧ s.line.txReady = true) where
  enabled hs _ := fun ⟨_, hr⟩ => lineTxEnabled_iff.mpr ⟨hs.inv.noFault, hr⟩
  taken := by
    intro s t hs ⟨hspin, hr⟩ h
    obtain ⟨w, hw⟩ := hs.inv.exists_inflight_byte hr
    obtain rfl := Host.Outcome.next.inj ((exec_lineTx_of_byte hs.inv.noFault hr hw).symm.trans h)
    exact ⟨⟨hspin.phase, hspin.full⟩, rfl⟩
  other := by
    intro s t j hs ⟨hspin, hr⟩ hj h
    obtain ⟨-, ht⟩ := exec_cases h
    have hj' : j ≠ .isrTx := by
      rintro rfl
      obtain ⟨-, he, -⟩ := agentStep_next h
      obtain ⟨-, -, -, hready⟩ := isrTxEnabled_iff.mp he
      cases hready.symm.trans hr
    exact .inl ⟨hspin.exec_next hs hj' h, ht.txReady_not_set hj hr⟩

/-- R155: a full buffer is armed, and the transmit handler makes room in it. -/
theorem ensures_room : Ensures .isrTx (fun s => Spins s ∧ s.line.txReady = true) HasRoom where
  enabled hs hg := fun ⟨hspin, hr⟩ =>
    isrTxEnabled_iff.mpr ⟨hs.inv.noFault, hg, hs.inv.armed.mpr (hspin.nonempty hs), hr⟩
  taken := by
    intro s t hs ⟨hspin, _⟩ h
    obtain ⟨-, -, hhead, -⟩ := hs.inv.indices
    have hn := hspin.nonempty hs
    obtain ⟨v, hv⟩ := hs.inv.exists_tx_head_byte hn
    obtain ⟨-, he, -⟩ := agentStep_next h
    obtain rfl := Host.Outcome.next.inj ((exec_isrTx_of_byte he hn hhead hv).symm.trans h)
    exact ⟨hspin.phase, hspin.full.trans_ne (advance_ne s.cfg hhead).symm⟩
  other := by
    intro s t j hs ⟨hspin, hr⟩ hj h
    obtain ⟨-, ht⟩ := exec_cases h
    exact .inl ⟨hspin.exec_next hs hj h, ht.txReady_not_cleared hj (by simp [hspin.phase]) hr⟩

/-- Settles O27: each stage of a WRITE is ended by a step that is treated fairly, and the last one answers. -/
theorem fairRunsCompleteEveryWrite : Obligations.FairRunsCompleteEveryWrite := by
  intro r l hrun hfair h0 hg n hn
  have hw4 : LeadsTo r (·.m.phase = .w4) (·.m.phase = .idle) := ensures_w4.leadsTo hrun hfair.mainline h0 hg
  have hw3 := (ensures_w3.leadsTo hrun hfair.mainline h0 hg).trans hw4
  have hroom := (ensures_w2_room.leadsTo hrun hfair.mainline h0 hg).trans hw3
  have hready := (ensures_room.leadsTo hrun hfair.isrTx h0 hg).trans hroom
  have hbusy := (ensures_ready.leadsTo hrun hfair.lineTx h0 hg).trans hready
  have hw2 : LeadsTo r (·.m.phase = .w2) (·.m.phase = .idle) := by
    intro k hp
    by_cases hfull : advance (r k).cfg (r k).tx.tail = (r k).tx.head
    · cases hr : (r k).line.txReady with
      | true => exact hready k ⟨⟨hp, hfull⟩, hr⟩
      | false => exact hbusy k ⟨⟨hp, hfull⟩, hr⟩
    · exact hroom k ⟨hp, hfull⟩
  have hw1 := (ensures_w1.leadsTo hrun hfair.mainline h0 hg).trans ((LeadsTo.refl r _).or hw2)
  cases hp : (r n).m.phase with
  | w1 => exact hw1 n hp
  | w2 => exact hw2 n hp
  | w3 => exact hw3 n hp
  | w4 => exact hw4 n hp
  | _ => rw [hp] at hn; cases hn

end Sys2Proof.Machine
